-- ==== Sys2Proof/Word.lean ====
section
/-! DEFINITION. The word and the byte of the UM core (spec/00_scope.md R5, R7; spec/20_memory.md R32, R45). -/

namespace Sys2Proof

/-- One machine word: the unit of data, of instructions and of memory, unsigned, 32 bits (R5, R7, R32). -/
abbrev Word := BitVec 32

/-- One byte. Bytes exist only on the host interface and in the image (R45). -/
abbrev Byte := BitVec 8

end Sys2Proof
end

