-- ==== Sys2Proof/Config.lean ====
section
/-! DEFINITION. What an implementation or the host fixes and the spec leaves open as a named parameter (spec/00_scope.md
R5; spec/92_eei_decisions.md D4, D5, D12, D13, D18). Each is an opaque function or number: nothing in Lean can evaluate
it, so what is proved holds whatever it is. State says which of them answers next, and may queue concrete answers before
them (logs 3 to 6). The first argument numbers the hosts and the policies, so that one statement can speak of two. -/

namespace Sys2Proof.Machine

/-- What the host answers to a `HostRead` (43_host_io R91, R95). -/
inductive ReadAnswer where
  | byte (v : Byte)
  | eof
  | ioerr
  /-- the host has no answer yet: the Input waits (R95) -/
  | notYet
deriving DecidableEq, Repr, Inhabited

/-- What the host answers to a `HostWrite` (R91); a failed write may or may not have delivered its byte (R96). -/
inductive WriteAnswer where
  | ok
  | ioerr (delivered : Bool)
deriving DecidableEq, Repr, Inhabited

end Sys2Proof.Machine

namespace Sys2Proof

/-- The draw `oomDraw` of a host at its n-th request for storage (92 D5; log 4). -/
opaque Config.oomDraw (host n : Nat) : Bool

/-- The oracle `HostIn` of a host: its answer when it is asked for input the n-th time (92 D12, D23; log 5). -/
opaque Config.hostIn (host n : Nat) : Machine.ReadAnswer

/-- The oracle `HostOut` of a host: its answer to the n-th write (92 D13; log 6). -/
opaque Config.hostOut (host n : Nat) : Machine.WriteAnswer

/-- `AllocPolicy.choose` of a policy, on its hidden state (R18, R40; 92 D4; log 3). -/
opaque Config.policyChoose (policy hidden : Nat) : Word

/-- `AllocPolicy.update(k)` of a policy: its hidden state afterwards (R40; 92 D4; log 3). -/
opaque Config.policyUpdate (policy hidden : Nat) (k : Word) : Nat

/-- `AllocPolicy.release(id)` of a policy: its hidden state afterwards (R41; 92 D4; log 3). -/
opaque Config.policyRelease (policy hidden : Nat) (id : Word) : Nat

/-- The free part of the parameter `faultExitCode` (92 D18): nothing is known of it (log 15). -/
opaque Config.faultExitCodePred : Nat

/-- The process exit code on a fault: some number other than 0 (R5, 92 D18; log 15). -/
def Config.faultExitCode : Nat := Config.faultExitCodePred + 1

end Sys2Proof
end

