-- ==== Sys2Proof/Syntax.lean ====
section
/-! DEFINITION. The instructions of the UM core: one constructor per row of spec/opcode_table.json
(spec/30_encoding.md R66, R70). -/

namespace Sys2Proof

/-- The eight general registers x[0] to x[7] (R11); a selector names one of them directly (R64). -/
inductive Reg where
  | r0 | r1 | r2 | r3 | r4 | r5 | r6 | r7
deriving DecidableEq, Repr

/-- One constructor per row of the opcode table. The operands are the selectors an opcode uses (R65, R70), under the
names A, B, C of the spec; bits the decoder ignores are no operands (log 11). -/
inductive Instr where
  /-- op 0, `cmov rA, rB, rC` (R73) -/
  | cmov (a b c : Reg)
  /-- op 1, `index rA, rB, rC` (R79) -/
  | index (a b c : Reg)
  /-- op 2, `amend rA, rB, rC` (R80) -/
  | amend (a b c : Reg)
  /-- op 3, `add rA, rB, rC` (R74) -/
  | add (a b c : Reg)
  /-- op 4, `mul rA, rB, rC` (R75) -/
  | mul (a b c : Reg)
  /-- op 5, `div rA, rB, rC` (R76) -/
  | div (a b c : Reg)
  /-- op 6, `nand rA, rB, rC` (R77) -/
  | nand (a b c : Reg)
  /-- op 7, `halt` (R86) -/
  | halt
  /-- op 8, `alloc rB, rC` (R81) -/
  | alloc (b c : Reg)
  /-- op 9, `abandon rC` (R82) -/
  | abandon (c : Reg)
  /-- op 10, `out rC` (R93) -/
  | out (c : Reg)
  /-- op 11, `in rC` (R94) -/
  | inp (c : Reg)
  /-- op 12, `loadprog rB, rC` (R87) -/
  | loadprog (b c : Reg)
  /-- op 13, `lc rA, imm` (R78); the immediate is held zero-extended to 32 bits, as the decoder of R64 gives it
  (log 17). -/
  | lc (a : Reg) (imm : Word)
  /-- op 14: an illegal word (R67) -/
  | illegal14
  /-- op 15: an illegal word (R67) -/
  | illegal15
deriving DecidableEq, Repr

end Sys2Proof
end

