-- ==== Sys2Proof/WellFormed.lean ====
section
/-! DEFINITION. Which terms of Instr are instructions of the hardware. A selector names one of eight registers by its
type; the one check left is the range of Load-Constant's immediate (spec/30_encoding.md R64). -/

namespace Sys2Proof

/-- The immediate of Load-Constant lies in 0 .. 2^25 - 1 (R64, R78). -/
abbrev immInRange (imm : Word) : Prop := imm.toNat < 2 ^ 25

/-- A well-formed instruction: one that some word encodes. -/
abbrev Instr.wf : Instr → Prop
  | .lc _ imm => immInRange imm
  | .cmov _ _ _ | .index _ _ _ | .amend _ _ _ | .add _ _ _ | .mul _ _ _ | .div _ _ _ | .nand _ _ _
  | .halt | .alloc _ _ | .abandon _ | .out _ | .inp _ | .loadprog _ _ | .illegal14 | .illegal15 => True

end Sys2Proof
end

