-- ==== Sys2Proof/Decode.lean ====
section
/-! DEFINITION. The instruction decoder and the canonical encoder (spec/30_encoding.md), and the byte order of the
image (spec/20_memory.md R44). -/

namespace Sys2Proof

/-! ## The fields of a word (R6, R61 to R63) -/

/-- `w[lo+k-1 : lo]` (R6). -/
def bits (w : Word) (lo k : Nat) : BitVec k := w.extractLsb' lo k

/-- `op = w[31:28]` (R61). -/
def opField (w : Word) : BitVec 4 := bits w 28 4

/-- `A = w[8:6]` (R62). -/
def aField (w : Word) : BitVec 3 := bits w 6 3

/-- `B = w[5:3]` (R62). -/
def bField (w : Word) : BitVec 3 := bits w 3 3

/-- `C = w[2:0]` (R62). -/
def cField (w : Word) : BitVec 3 := bits w 0 3

/-- `A' = w[27:25]`, the selector of Load-Constant (R63). -/
def aLcField (w : Word) : BitVec 3 := bits w 25 3

/-- `imm = w[24:0]`, the immediate of Load-Constant (R63). -/
def immField (w : Word) : BitVec 25 := bits w 0 25

/-- The outputs of the decoder as a sub-block (10_state R23). -/
structure DecoderOut where
  op      : BitVec 4
  a       : BitVec 3
  b       : BitVec 3
  c       : BitVec 3
  aLc     : BitVec 3
  imm     : BitVec 25
  illegal : Bool
deriving DecidableEq, Repr

/-- The decoder as a pure function of the fetched word (10_state R23). -/
def decoderOut (w : Word) : DecoderOut :=
  { op := opField w, a := aField w, b := bField w, c := cField w, aLc := aLcField w, imm := immField w,
    illegal := decide (14 ≤ (opField w).toNat) }

/-! ## Register selectors (R64) -/

/-- The register a 3-bit selector names. -/
def Reg.ofBits (n : BitVec 3) : Reg :=
  match n.toNat with
  | 0 => .r0
  | 1 => .r1
  | 2 => .r2
  | 3 => .r3
  | 4 => .r4
  | 5 => .r5
  | 6 => .r6
  | _ => .r7

/-- The selector that names a register. -/
def Reg.bits : Reg → BitVec 3
  | .r0 => 0
  | .r1 => 1
  | .r2 => 2
  | .r3 => 3
  | .r4 => 4
  | .r5 => 5
  | .r6 => 6
  | .r7 => 7

/-! ## Decode (R64, R66, R67) -/

/-- The immediate of Load-Constant, zero-extended from 25 to 32 bits (R64). -/
def immOperand (w : Word) : Word := (immField w).setWidth 32

/-- The decoder: total on every word; opcodes 14 and 15 are the illegal words (R64, R67). Bits outside the fields an
opcode uses are not looked at (R65). -/
def decode (w : Word) : Instr :=
  let a := Reg.ofBits (aField w)
  let b := Reg.ofBits (bField w)
  let c := Reg.ofBits (cField w)
  match (opField w).toNat with
  | 0 => .cmov a b c
  | 1 => .index a b c
  | 2 => .amend a b c
  | 3 => .add a b c
  | 4 => .mul a b c
  | 5 => .div a b c
  | 6 => .nand a b c
  | 7 => .halt
  | 8 => .alloc b c
  | 9 => .abandon c
  | 10 => .out c
  | 11 => .inp c
  | 12 => .loadprog b c
  | 13 => .lc (Reg.ofBits (aLcField w)) (immOperand w)
  | 14 => .illegal14
  | _ => .illegal15

/-! ## Encode (R66, R69) -/

/-- The opcode of an instruction (R66). -/
def Instr.opcode : Instr → BitVec 4
  | .cmov _ _ _ => 0
  | .index _ _ _ => 1
  | .amend _ _ _ => 2
  | .add _ _ _ => 3
  | .mul _ _ _ => 4
  | .div _ _ _ => 5
  | .nand _ _ _ => 6
  | .halt => 7
  | .alloc _ _ => 8
  | .abandon _ => 9
  | .out _ => 10
  | .inp _ => 11
  | .loadprog _ _ => 12
  | .lc _ _ => 13
  | .illegal14 => 14
  | .illegal15 => 15

/-- The canonical word of format RRR: `op`, 19 zero bits, A, B, C (R62, R69). -/
def rrrWord (op : BitVec 4) (a b c : BitVec 3) : Word := op ++ (0 : BitVec 19) ++ a ++ b ++ c

/-- The word of format LC: 1101, A', imm (R63, R69). -/
def lcWord (a : BitVec 3) (imm : BitVec 25) : Word := (13 : BitVec 4) ++ a ++ imm

/-- The canonical encoding: ignored bits and unused selectors are 0 (R69, R70). -/
def encode (i : Instr) : Word :=
  match i with
  | .cmov a b c | .index a b c | .amend a b c | .add a b c | .mul a b c | .div a b c | .nand a b c =>
    rrrWord i.opcode a.bits b.bits c.bits
  | .halt | .illegal14 | .illegal15 => rrrWord i.opcode 0 0 0
  | .alloc b c | .loadprog b c => rrrWord i.opcode 0 b.bits c.bits
  | .abandon c | .out c | .inp c => rrrWord i.opcode 0 0 c.bits
  | .lc a imm => lcWord a.bits (imm.setWidth 25)

/-- The canonical form of a word: the same instruction with every ignored bit 0 (R69). -/
def canonical (w : Word) : Word := encode (decode w)

/-! ## Bytes and words: big-endian, only at the image boundary (R44) -/

/-- Word k of an image: `b0*2^24 + b1*2^16 + b2*2^8 + b3` (R44). -/
def wordOfBytes (b0 b1 b2 b3 : Byte) : Word := b0 ++ b1 ++ b2 ++ b3

/-- The words of an image, four bytes each, in order (R44). A rest of fewer than four bytes is dropped; the size check
of R114 has refused such an image before. -/
def imageWords : List Byte → List Word
  | b0 :: b1 :: b2 :: b3 :: rest => wordOfBytes b0 b1 b2 b3 :: imageWords rest
  | _ => []

/-- Why bytes hold no instruction word. -/
inductive DecodeReject where
  /-- fewer than four bytes are left: an instruction is exactly one 32-bit word (R60) -/
  | truncated
deriving DecidableEq, Repr

/-- Decoding a byte sequence in the image's byte order: the first instruction and the bytes after it (R44, R60, R64). -/
def decodeBytes : List Byte → Except DecodeReject (Instr × List Byte)
  | b0 :: b1 :: b2 :: b3 :: rest => .ok (decode (wordOfBytes b0 b1 b2 b3), rest)
  | _ => .error .truncated

/-- The bytes of a word in the image's byte order, most significant first (R44). -/
def bytesOfWord (w : Word) : List Byte := [bits w 24 8, bits w 16 8, bits w 8 8, bits w 0 8]

/-- The instruction the decoder reads from a row of the opcode table whose `nbits` bits are `w` (bit 0 the least
significant of the one word). A row wider than one word does not exist (R60). -/
def decodeTableWord (nbits w : Nat) : Option Instr :=
  if nbits ≤ 32 then some (decode (BitVec.ofNat 32 (w % 2 ^ nbits))) else none

end Sys2Proof
end

