-- ==== Sys2Proof/Machine/State.lean ====
section
/-! DEFINITION. The state of the UM core (spec/10_state.md), the reasons a step can stop, and the state after reset. -/

namespace Sys2Proof.Machine

/-- The register file: eight 32-bit words (R11). -/
structure Regs where
  x0 : Word
  x1 : Word
  x2 : Word
  x3 : Word
  x4 : Word
  x5 : Word
  x6 : Word
  x7 : Word
deriving DecidableEq, Repr

/-- The engine status (R17). -/
inductive Status where
  | running
  | halted
  | faulted
deriving DecidableEq, Repr

/-- The ten faults of the UM core, in the spec's order (60_exceptions R98). Raising one is a NEXT state whose status is
`faulted` (R9; log 1). -/
inductive FaultKind where
  /-- image length not a positive multiple of 4; raised before execution begins (R98, R114) -/
  | invalidImageSize
  /-- fetch with ip at or past the length of segment 0 (R98) -/
  | instructionPointerOutOfBounds
  /-- decoded opcode 14 or 15 (R98) -/
  | illegalInstruction
  /-- use of an identifier that is not live (R98) -/
  | invalidSegment
  /-- offset at or past the segment's length (R98) -/
  | segmentOffsetOutOfBounds
  /-- Abandon of identifier 0 (R98) -/
  | abandonSegmentZero
  /-- Divide with divisor 0 (R98) -/
  | divideByZero
  /-- Output of a value above 255 (R98) -/
  | outputOutOfRange
  /-- the host's read or write failed (R98) -/
  | hostIOError
  /-- the host refused storage, or no identifier is free (R98, 92 D5) -/
  | outOfHostMemory
deriving DecidableEq, Repr

/-- The fault record: the kind and the value of ip at the raise (R19, R99). -/
structure FaultRecord where
  kind : FaultKind
  ip   : Word
deriving DecidableEq, Repr

/-- A segment: its length in words and its words (R15, R16). Only words that differ from the value of an unlisted word
are listed, by rising offset (log 8). -/
structure Segment where
  len   : Word
  cells : List (Nat × Word)
deriving DecidableEq, Repr

/-- The memory store: segment 0, which is always present, and the live non-zero segments by rising identifier (R15, R33,
R34, R36). -/
structure Memory where
  seg0 : Segment
  segs : List (Nat × Segment)
deriving DecidableEq, Repr

/-- The policy in force: the reference policy of R52, or an implementation's own one, with its hidden state (R18; 92 D4;
log 3). A hidden state is a number: it depends on finitely many identifiers issued and released. -/
inductive Policy where
  | reference
  | own (policy hidden : Nat)
deriving DecidableEq, Repr

/-- The allocator's hidden state (R18, R52): the free list, most recently freed first; the lowest identifier never yet
issued; and, fields of the model's own (92 D4; log 3), identifiers to be picked before the policy is asked, and the policy
in force. -/
structure AllocState where
  free   : List Word
  next   : Nat
  picks  : List Word
  policy : Policy
deriving DecidableEq, Repr

/-- How a source of answers goes on for ever: with one answer, or as the host of that number answers from its n-th
call on (logs 4, 5, 6). -/
inductive Rest (α : Type) where
  | always (a : α)
  | oracle (host n : Nat)
deriving DecidableEq, Repr

/-- Answers that come from outside: those queued, then the rest (logs 4, 5, 6). -/
structure Answers (α : Type) where
  queue : List α
  rest  : Rest α
deriving DecidableEq, Repr

/-- The host as the core meets it (R30): its future answers and the bytes it has received. Fields of the model's own;
they are not UM core state (R21; logs 4 to 7). -/
structure HostState where
  /-- the draws `oomDraw` (92 D5) -/
  oom      : Answers Bool
  /-- the oracle `HostIn` (92 D12) -/
  input    : Answers ReadAnswer
  /-- the oracle `HostOut` (92 D13) -/
  writes   : Answers WriteAnswer
  /-- the bytes delivered to the host writer, oldest first (R92) -/
  output   : List Byte
  /-- the number of further fetch boundaries that pass before the host cancels; none: it never does (60 R107, 92 D11) -/
  cancelIn : Option Nat
deriving DecidableEq, Repr

/-- The state: the state tuple of R20 (registers, ip, memory store), the engine's bookkeeping (R17 to R19), and the
host's side (R21). -/
structure State where
  regs        : Regs
  ip          : Word
  mem         : Memory
  status      : Status
  faultRecord : Option FaultRecord
  alloc       : AllocState
  host        : HostState
deriving DecidableEq, Repr

/-- Why the machine takes no step. The faults of the spec's own taxonomy are not here: raising one is a next state (log
1). Each of these is safe: it is the spec's own end of a run, with no state after it. -/
inductive Fault where
  /-- raised by `step` in status halted: no further step is taken (42 R86, R90; log 2); safe -/
  | engineHalted
  /-- raised by `step` in status faulted: a fault is terminal (42 R90, 60 R97; log 2); safe -/
  | engineFaulted
  /-- raised by `step` at the fetch boundary where the host cancels: the outcome Cancelled (00 R10, 60 R107; log 7);
  safe -/
  | cancelled
  /-- raised by `boot` for an image whose length is not a positive multiple of 4: InvalidImageSize, before any state
  exists (60 R98, 70 R114); safe -/
  | invalidImageSize
deriving DecidableEq, Repr

/-- What the model declines. -/
inductive Refusal where
  /-- raised by `exec` for an instruction that has no meaning yet; no arm does; safe -/
  | notModelled (mnemonic : String)
  /-- raised by `boot` for an image of more than 2^32 - 1 words, which the spec puts outside the model (70 R114, 92 D16;
  log 18); safe -/
  | imageTooLarge
deriving DecidableEq, Repr

/-- The state of R31 before an image is supplied: registers and ip 0, status running, no fault record, no non-zero
segment, the allocator's initial state. Segment 0 has no word yet (log 9); the model's own fields have the values of logs
3 to 7. -/
def State.reset : State :=
  { regs := ⟨0, 0, 0, 0, 0, 0, 0, 0⟩
    ip := 0
    mem := ⟨⟨0, []⟩, []⟩
    status := .running
    faultRecord := none
    alloc := ⟨[], 1, [], .reference⟩
    host :=
      { oom := ⟨[], .always false⟩
        input := ⟨[], .always .eof⟩
        writes := ⟨[], .always .ok⟩
        output := []
        cancelIn := none } }

end Sys2Proof.Machine
end

