-- ==== Sys2Proof/Machine/Ops.lean ====
section
/-! DEFINITION. The named operations over memory, the allocator, the fault record and the host: the primitives of
spec/20_memory.md, spec/43_host_io.md R91 and spec/00_scope.md R9. -/

namespace Sys2Proof.Machine

/-! ## Lists of keyed values -/

/-- The value under a key. -/
def assocGet {α : Type} (k : Nat) : List (Nat × α) → Option α
  | [] => none
  | (j, v) :: t => if k = j then some v else assocGet k t

/-- Put a value under a key, keeping the keys rising. -/
def assocPut {α : Type} (k : Nat) (v : α) : List (Nat × α) → List (Nat × α)
  | [] => [(k, v)]
  | (j, u) :: t =>
    if k < j then (k, v) :: (j, u) :: t
    else if k = j then (k, v) :: t
    else (j, u) :: assocPut k v t

/-- Remove a key. -/
def assocErase {α : Type} (k : Nat) : List (Nat × α) → List (Nat × α)
  | [] => []
  | (j, u) :: t => if k = j then assocErase k t else (j, u) :: assocErase k t

/-- The keys strictly rise. -/
abbrev KeysRise {α : Type} (l : List (Nat × α)) : Prop := l.Pairwise fun p q => p.1 < q.1

/-! ## Segments (R15, R16, R32, R37) -/

/-- What a word that no write has reached reads as: 0 (R40, R59; log 8). -/
def unlistedWord : Word := 0#32

/-- Whether an offset lies inside a segment: `off < Len` (R38). -/
abbrev Segment.inBounds (g : Segment) (off : Word) : Prop := off < g.len

/-- The word at an offset, for an offset inside the segment. -/
def Segment.get (g : Segment) (off : Word) : Word := (assocGet off.toNat g.cells).getD unlistedWord

/-- Replace the word at an offset, keeping the canonical form. -/
def Segment.set (g : Segment) (off v : Word) : Segment :=
  { g with cells :=
      if v = unlistedWord then assocErase off.toNat g.cells else assocPut off.toNat v g.cells }

/-- A segment of n words, every word 0 (R40). -/
def Segment.zeros (n : Word) : Segment := ⟨n, []⟩

/-- The listed cells of a sequence of words that starts at offset `at0`. -/
def cellsFrom (at0 : Nat) : List Word → List (Nat × Word)
  | [] => []
  | w :: ws => if w = unlistedWord then cellsFrom (at0 + 1) ws else (at0, w) :: cellsFrom (at0 + 1) ws

/-- The segment that holds a sequence of words, in order (R43, R44). -/
def Segment.ofWords (ws : List Word) : Segment := ⟨BitVec.ofNat 32 ws.length, cellsFrom 0 ws⟩

/-- The canonical form of a segment: offsets rise, lie inside the segment, and no listed word is 0. -/
abbrev Segment.wf (g : Segment) : Prop :=
  KeysRise g.cells ∧ ∀ p ∈ g.cells, p.1 < g.len.toNat ∧ p.2 ≠ unlistedWord

/-! ## The memory store (R36 to R43) -/

/-- `Seg(id)`: segment 0 is always there; another identifier names a segment exactly while it is live (R15, R36). -/
def Memory.find (m : Memory) (id : Word) : Option Segment :=
  if id = 0#32 then some m.seg0 else assocGet id.toNat m.segs

/-- `Live(id)` (R36). -/
def Memory.live (m : Memory) (id : Word) : Bool := (m.find id).isSome

/-- `Len(id)`, defined for a live identifier only (R37). -/
def Memory.length? (m : Memory) (id : Word) : Option Word := (m.find id).map (·.len)

/-- Replace the segment an identifier names. -/
def Memory.put (m : Memory) (id : Word) (g : Segment) : Memory :=
  if id = 0#32 then { m with seg0 := g } else { m with segs := assocPut id.toNat g m.segs }

/-- `MemRead(id, off)` (R38): liveness first, then bounds. -/
def Memory.read (m : Memory) (id off : Word) : Except FaultKind Word :=
  match m.find id with
  | none => .error .invalidSegment
  | some g => if g.inBounds off then .ok (g.get off) else .error .segmentOffsetOutOfBounds

/-- `MemWrite(id, off, v)` (R39): the same faults; no other word and no length changes. -/
def Memory.write (m : Memory) (id off v : Word) : Except FaultKind Memory :=
  match m.find id with
  | none => .error .invalidSegment
  | some g => if g.inBounds off then .ok (m.put id (g.set off v)) else .error .segmentOffsetOutOfBounds

/-- A fresh segment of n zero words under identifier k (R40). -/
def Memory.create (m : Memory) (k n : Word) : Memory := m.put k (Segment.zeros n)

/-- `Free(id)` on the store (R41): identifier 0 first, then liveness. -/
def Memory.free (m : Memory) (id : Word) : Except FaultKind Memory :=
  if id = 0#32 then .error .abandonSegmentZero
  else if m.live id then .ok { m with segs := assocErase id.toNat m.segs }
  else .error .invalidSegment

/-- `Duplicate(id)` on the store (R42): an owned copy of the segment's words. -/
def Memory.duplicate (m : Memory) (id : Word) : Except FaultKind Segment :=
  match m.find id with
  | none => .error .invalidSegment
  | some g => .ok g

/-- `Install(S)` (R43): S is the new segment 0; no other segment changes; it cannot fault. -/
def Memory.install (m : Memory) (g : Segment) : Memory := { m with seg0 := g }

/-- The canonical form of memory: every segment in canonical form, identifiers rising, non-zero and of 32 bits (4294967296 is 2^32). -/
abbrev Memory.wf (m : Memory) : Prop :=
  m.seg0.wf ∧ KeysRise m.segs ∧ ∀ p ∈ m.segs, 0 < p.1 ∧ p.1 < 4294967296 ∧ p.2.wf

/-! ## The identifier-assignment policy (R18, R40, R52; 92 D4; log 3) -/

/-- An identifier Alloc may return: not 0 and not live (R40, R59). -/
def Memory.fresh (m : Memory) (k : Word) : Bool := decide (k ≠ 0#32) && !m.live k

/-- The lowest number, from n on, that is no key of a list with rising keys. -/
def lowestAbsent {α : Type} (n : Nat) : List (Nat × α) → Nat
  | [] => n
  | (k, _) :: t => if k = n then lowestAbsent (n + 1) t else n

/-- `AllocPolicy.choose` of an implementation's own policy (R40). -/
def Policy.choice : Policy → List Word
  | .reference => []
  | .own p h => [Config.policyChoose p h]

/-- `AllocPolicy.update(k)` of an implementation's own policy (R40). -/
def Policy.update (k : Word) : Policy → Policy
  | .reference => .reference
  | .own p h => .own p (Config.policyUpdate p h k)

/-- `AllocPolicy.release(id)` of an implementation's own policy (R41). -/
def Policy.release (id : Word) : Policy → Policy
  | .reference => .reference
  | .own p h => .own p (Config.policyRelease p h id)

/-- The identifiers considered, in order: the queued pick, the choice of the implementation's own policy; then, for the
reference policy, the most recently freed and `next` (R52); last the lowest identifier that is not live, so that a fresh
one is found whenever there is one (R40). -/
def AllocState.candidates (a : AllocState) (m : Memory) : List Word :=
  a.picks.take 1 ++ a.policy.choice ++ a.free ++
    [BitVec.ofNat 32 a.next, BitVec.ofNat 32 (lowestAbsent 1 m.segs)]

/-- `choose` (R40, R52): a fresh identifier, or none when every non-zero identifier is live. -/
def AllocState.choose (a : AllocState) (m : Memory) : Option Word := (a.candidates m).find? m.fresh

/-- `update(k)` (R52): an identifier from the free list leaves it; the counter moves on when it was the one issued. The
queued pick is used up, and its policy is told. -/
def AllocState.update (a : AllocState) (k : Word) : AllocState :=
  { free := a.free.erase k
    next := if k ∉ a.free ∧ k.toNat = a.next then a.next + 1 else a.next
    picks := a.picks.tail
    policy := a.policy.update k }

/-- `release(id)` (R41, R52): push the identifier onto the free list; an implementation's own policy is told. -/
def AllocState.release (a : AllocState) (id : Word) : AllocState :=
  { a with free := id :: a.free, policy := a.policy.release id }

/-! ## Raising a fault: the one shared operation (R9, R97, R99, R100) -/

/-- `raise F(info)`: the status becomes Faulted with the record (F, ip); control goes nowhere and nothing else changes
(R9, R97, R99, R105; log 1). -/
def State.raise (s : State) (k : FaultKind) : State :=
  { s with status := .faulted, faultRecord := some ⟨k, s.ip⟩ }

/-- The end of an instruction that used a primitive which may fault: on a value it goes on, on a fault it raises it in
the state the primitive left. -/
def finish {α : Type} (r : State × Except FaultKind α) (go : α → State → State) :
    Host.Outcome State Fault Refusal :=
  .next (match r with
    | (s, .ok v) => go v s
    | (s, .error k) => s.raise k)

/-! ## The host's answers (R91, R92; logs 4, 5, 6) -/

/-- The first answer of a rest, where f gives the answers of the hosts. -/
def Rest.head {α : Type} (f : Nat → Nat → α) : Rest α → α
  | .always a => a
  | .oracle h n => f h n

/-- The rest after its first answer. -/
def Rest.tail {α : Type} : Rest α → Rest α
  | .always a => .always a
  | .oracle h n => .oracle h (n + 1)

/-- The answer that comes next, where f gives the answers of the hosts. -/
def Answers.head {α : Type} (f : Nat → Nat → α) (q : Answers α) : α :=
  match q.queue with
  | a :: _ => a
  | [] => q.rest.head f

/-- The answers after the next one. -/
def Answers.tail {α : Type} (q : Answers α) : Answers α :=
  match q.queue with
  | _ :: l => { q with queue := l }
  | [] => { q with rest := q.rest.tail }

/-- The draw `oomDraw()` that comes next: true if the host refuses (92 D5). -/
def HostState.nextOom (h : HostState) : Bool := h.oom.head Config.oomDraw

/-- The answer to the next `HostRead()` (92 D12). -/
def HostState.nextRead (h : HostState) : ReadAnswer := h.input.head Config.hostIn

/-- The answer to the next `HostWrite` (92 D13). -/
def HostState.nextWrite (h : HostState) : WriteAnswer := h.writes.head Config.hostOut

/-- After the draw `oomDraw()` (92 D5). -/
def State.afterOomDraw (s : State) : State := { s with host := { s.host with oom := s.host.oom.tail } }

/-- After one `HostRead()` (R91): the core keeps nothing of it. -/
def State.afterRead (s : State) : State := { s with host := { s.host with input := s.host.input.tail } }

/-- Whether the host delivers the byte of this write: always on `ok`, on a failed write as the host's answer says
(R96). -/
def WriteAnswer.delivered : WriteAnswer → Bool
  | .ok => true
  | .ioerr d => d

/-- After one `HostWrite(b)` (R91, R92). -/
def State.afterWrite (s : State) (b : Byte) : State :=
  { s with host := { s.host with
      writes := s.host.writes.tail
      output := if s.host.nextWrite.delivered then s.host.output ++ [b] else s.host.output } }

/-- `HostWrite(b)` (R91, R93). -/
def State.hostWrite (s : State) (b : Byte) : State × Except FaultKind Unit :=
  match s.host.nextWrite with
  | .ok => (s.afterWrite b, .ok ())
  | .ioerr _ => (s.afterWrite b, .error .hostIOError)

/-! ## Storage requests as the engine makes them (R40, R41, R42) -/

/-- The state with another memory store. -/
def State.withMem (s : State) (m : Memory) : State := { s with mem := m }

/-- The state with another allocator state. -/
def State.withAlloc (s : State) (a : AllocState) : State := { s with alloc := a }

/-- `Alloc(n)` (R40). -/
def State.allocSegment (s : State) (n : Word) : State × Except FaultKind Word :=
  if s.host.nextOom then (s.afterOomDraw, .error .outOfHostMemory)
  else
    match s.alloc.choose s.mem with
    | none => (s.afterOomDraw, .error .outOfHostMemory)
    | some k => ((s.afterOomDraw.withMem (s.mem.create k n)).withAlloc (s.alloc.update k), .ok k)

/-- `Free(id)` (R41). -/
def State.freeSegment (s : State) (id : Word) : State × Except FaultKind Unit :=
  match s.mem.free id with
  | .ok m => ((s.withMem m).withAlloc (s.alloc.release id), .ok ())
  | .error k => (s, .error k)

/-- `Duplicate(id)` (R42): liveness first, then the host's refusal. -/
def State.duplicateSegment (s : State) (id : Word) : State × Except FaultKind Segment :=
  match s.mem.duplicate id with
  | .error k => (s, .error k)
  | .ok g => if s.host.nextOom then (s.afterOomDraw, .error .outOfHostMemory) else (s.afterOomDraw, .ok g)

/-! ## The instruction pointer (R13, R85, R95) -/

/-- Set ip. -/
def State.setIp (s : State) (v : Word) : State := { s with ip := v }

/-- The fetch's `ip <- ip + 1` (R83). -/
def State.advance (s : State) : State := s.setIp (s.ip + 1)

/-- The state before the fetch's increment: what a waiting Input leaves (R95; log 12). -/
def State.unfetch (s : State) : State := s.setIp (s.ip - 1)

/-- The status Halted (R86). -/
def State.halt (s : State) : State := { s with status := .halted }

/-- The numbers of the faults (R98, 92 D21): the spec's own, of no meaning outside a model. -/
def FaultKind.code : FaultKind → Nat
  | .invalidImageSize => 1
  | .instructionPointerOutOfBounds => 2
  | .illegalInstruction => 3
  | .invalidSegment => 4
  | .segmentOffsetOutOfBounds => 5
  | .abandonSegmentZero => 6
  | .divideByZero => 7
  | .outputOutOfRange => 8
  | .hostIOError => 9
  | .outOfHostMemory => 10

end Sys2Proof.Machine
end

