-- ==== Sys2Proof/Machine/Operands.lean ====
section
/-! DEFINITION. The operand forms: the register file with its read and write ports (spec/10_state.md R11, R24), and the
widths of the host's bytes (spec/43_host_io.md R93, R94). -/

namespace Sys2Proof.Machine

/-- Read a register. -/
def Regs.get (g : Regs) : Reg → Word
  | .r0 => g.x0
  | .r1 => g.x1
  | .r2 => g.x2
  | .r3 => g.x3
  | .r4 => g.x4
  | .r5 => g.x5
  | .r6 => g.x6
  | .r7 => g.x7

/-- Write a register; no register is hardwired (R11). -/
def Regs.set (g : Regs) (r : Reg) (v : Word) : Regs :=
  match r with
  | .r0 => { g with x0 := v }
  | .r1 => { g with x1 := v }
  | .r2 => { g with x2 := v }
  | .r3 => { g with x3 := v }
  | .r4 => { g with x4 := v }
  | .r5 => { g with x5 := v }
  | .r6 => { g with x6 := v }
  | .r7 => { g with x7 := v }

/-- `x[i]` (R8). -/
def State.x (s : State) (r : Reg) : Word := s.regs.get r

/-- `x[i] <- v` (R8). -/
def State.setX (s : State) (r : Reg) (v : Word) : State := { s with regs := s.regs.set r v }

/-- The write port: `wa`, `wd` and the enable `we`; with `we = 0` nothing changes (R24). -/
def State.writePort (s : State) (wa : Reg) (wd : Word) (we : Bool) : State := if we then s.setX wa wd else s

/-- The byte an Output sends: `v[7:0]` (R93). -/
def outByte (v : Word) : Byte := bits v 0 8

/-- The value an Input writes for a byte: the byte zero-extended (R94). -/
def inByte (b : Byte) : Word := b.setWidth 32

/-- The value an Input writes at end-of-stream: 2^32 - 1, all bits one (R94). -/
def eofWord : Word := BitVec.allOnes 32

end Sys2Proof.Machine
end

