-- ==== Sys2Proof/Machine/Control.lean ====
section
/-! DEFINITION. Halt, Load-Program and the illegal words (spec/42_dispatch_and_control.md R86, R87;
spec/30_encoding.md R67). -/

namespace Sys2Proof.Machine

/-- `halt` (R86). -/
def execHalt (s : State) : Host.Outcome State Fault Refusal := .next s.halt

/-- `loadprog rB, rC` (R87): with x[B] = 0 a pure jump, else segment 0 becomes a copy of segment x[B]. -/
def execLoadprog (b c : Reg) (s : State) : Host.Outcome State Fault Refusal :=
  if s.x b = 0#32 then .next (s.setIp (s.x c))
  else finish (s.duplicateSegment (s.x b)) fun g t => (t.withMem (t.mem.install g)).setIp (s.x c)

/-- A word of opcode 14: IllegalInstruction (R67, R83). -/
def execIllegal14 (s : State) : Host.Outcome State Fault Refusal := .next (s.raise .illegalInstruction)

/-- A word of opcode 15: IllegalInstruction (R67, R83). -/
def execIllegal15 (s : State) : Host.Outcome State Fault Refusal := .next (s.raise .illegalInstruction)

end Sys2Proof.Machine
end

