-- ==== Sys2Proof/Machine/Flags.lean ====
section
/-! DEFINITION. The UM core has no flags and no condition codes (spec/10_state.md R20). What stands in their place are
three conditions on a word that an instruction tests and does not keep. -/

namespace Sys2Proof.Machine

/-- The condition of Conditional-Move, on all 32 bits: any non-zero value is true (R73). -/
def conditionHolds (v : Word) : Bool := decide (v ≠ 0#32)

/-- The ALU's `divzero` for divisor q (R25). -/
def divisorIsZero (q : Word) : Bool := decide (q = 0#32)

/-- The range check of Output: the value is above 255 (R93). -/
def aboveByte (v : Word) : Bool := decide (255 < v.toNat)

end Sys2Proof.Machine
end

