-- ==== Sys2Proof/Machine/HostIo.lean ====
section
/-! DEFINITION. Host byte I/O (spec/43_host_io.md R93 to R96). -/

namespace Sys2Proof.Machine

/-- `out rC` (R93): the range check comes before any host call. -/
def execOut (c : Reg) (s : State) : Host.Outcome State Fault Refusal :=
  if aboveByte (s.x c) then .next (s.raise .outputOutOfRange)
  else finish (s.hostWrite (outByte (s.x c))) fun _ t => t

/-- `in rC` (R94). While the host has no answer the Input waits: the core's state is the one before its fetch (R95;
log 5). -/
def execIn (c : Reg) (s : State) : Host.Outcome State Fault Refusal :=
  .next (match s.host.nextRead with
    | .byte v => s.afterRead.setX c (inByte v)
    | .eof => s.afterRead.setX c eofWord
    | .ioerr => s.afterRead.raise .hostIOError
    | .notYet => s.afterRead.unfetch)

end Sys2Proof.Machine
end

