-- ==== Sys2Proof/Machine/Alu.lean ====
section
/-! DEFINITION. The ALU as a sub-block: a pure function of an operation and two words (spec/10_state.md R25;
spec/40_move_and_alu.md R72). -/

namespace Sys2Proof.Machine

/-- The ALU's operations. -/
inductive AluOp where
  | add | mul | div | nand
deriving DecidableEq, Repr

/-- The ALU's outputs; `r` is not used when `divzero` is true. -/
structure AluOut where
  r       : Word
  divzero : Bool
deriving DecidableEq, Repr

/-- The ALU: every result modulo 2^32, unsigned (R25, R72). -/
def alu (op : AluOp) (p q : Word) : AluOut :=
  match op with
  | .add => ⟨p + q, false⟩
  | .mul => ⟨p * q, false⟩
  | .div => ⟨BitVec.udiv p q, divisorIsZero q⟩
  | .nand => ⟨~~~(p &&& q), false⟩

/-- An ALU instruction: operands from x[B] and x[C], the result to x[A], DivideByZero when the ALU says so (R29,
R74 to R77). -/
def State.aluTo (s : State) (op : AluOp) (a b c : Reg) : State :=
  if (alu op (s.x b) (s.x c)).divzero then s.raise .divideByZero
  else s.setX a (alu op (s.x b) (s.x c)).r

end Sys2Proof.Machine
end

