-- ==== Sys2Proof/Machine/MoveAlu.lean ====
section
/-! DEFINITION. Conditional-Move, the ALU instructions and Load-Constant (spec/40_move_and_alu.md R73 to R78). In every
meaning ip has already been incremented by the fetch. -/

namespace Sys2Proof.Machine

/-- `cmov rA, rB, rC` (R73). -/
def execCmov (a b c : Reg) (s : State) : Host.Outcome State Fault Refusal :=
  .next (s.writePort a (s.x b) (conditionHolds (s.x c)))

/-- `add rA, rB, rC` (R74). -/
def execAdd (a b c : Reg) (s : State) : Host.Outcome State Fault Refusal := .next (s.aluTo .add a b c)

/-- `mul rA, rB, rC` (R75). -/
def execMul (a b c : Reg) (s : State) : Host.Outcome State Fault Refusal := .next (s.aluTo .mul a b c)

/-- `div rA, rB, rC` (R76). -/
def execDiv (a b c : Reg) (s : State) : Host.Outcome State Fault Refusal := .next (s.aluTo .div a b c)

/-- `nand rA, rB, rC` (R77). -/
def execNand (a b c : Reg) (s : State) : Host.Outcome State Fault Refusal := .next (s.aluTo .nand a b c)

/-- `lc rA, imm` (R78). -/
def execLc (a : Reg) (imm : Word) (s : State) : Host.Outcome State Fault Refusal := .next (s.setX a imm)

end Sys2Proof.Machine
end

