-- ==== Sys2Proof/Machine/SegmentMem.lean ====
section
/-! DEFINITION. Segment access and allocation (spec/41_segment_memory.md R79 to R82). -/

namespace Sys2Proof.Machine

/-- `index rA, rB, rC` (R79). -/
def execIndex (a b c : Reg) (s : State) : Host.Outcome State Fault Refusal :=
  finish (s, s.mem.read (s.x b) (s.x c)) fun v t => t.setX a v

/-- `amend rA, rB, rC` (R80). -/
def execAmend (a b c : Reg) (s : State) : Host.Outcome State Fault Refusal :=
  finish (s, s.mem.write (s.x a) (s.x b) (s.x c)) fun m t => t.withMem m

/-- `alloc rB, rC` (R81). -/
def execAlloc (b c : Reg) (s : State) : Host.Outcome State Fault Refusal :=
  finish (s.allocSegment (s.x c)) fun k t => t.setX b k

/-- `abandon rC` (R82). -/
def execAbandon (c : Reg) (s : State) : Host.Outcome State Fault Refusal :=
  finish (s.freeSegment (s.x c)) fun _ t => t

end Sys2Proof.Machine
end

