-- ==== Sys2Proof/Machine/Fetch.lean ====
section
/-! DEFINITION. The fetch boundary and the fetch (spec/42_dispatch_and_control.md R83; spec/60_exceptions.md R101,
R107), and the placing of a word where the next fetch reads. -/

namespace Sys2Proof.Machine

/-- What a fetch boundary finds. -/
inductive Boundary where
  /-- no step is taken -/
  | stop (f : Fault)
  /-- the step goes on -/
  | go
deriving DecidableEq, Repr

/-- A step is taken only in status Running (R17, R83), and only if the host does not cancel here (R107). -/
def State.boundary (s : State) : Boundary :=
  match s.status, s.host.cancelIn with
  | .halted, _ => .stop .engineHalted
  | .faulted, _ => .stop .engineFaulted
  | .running, some 0 => .stop .cancelled
  | .running, _ => .go

/-- One fetch boundary has passed without cancellation (log 7). -/
def State.passBoundary (s : State) : State := { s with host := { s.host with cancelIn := s.host.cancelIn.map Nat.pred } }

/-- The word the fetch reads: `Seg(0)[ip]`, if `ip < Len(0)` (R83). -/
def State.fetchWord (s : State) : Except FaultKind Word :=
  if s.mem.seg0.inBounds s.ip then .ok (s.mem.seg0.get s.ip) else .error .instructionPointerOutOfBounds

/-- A segment long enough that an offset below 2^32 - 1 lies inside it. -/
def Segment.reach (g : Segment) (off : Word) : Segment := if g.inBounds off then g else { g with len := off + 1 }

/-- The offset the next fetch reads once a word is placed there: ip itself, but 0 for an ip of 2^32 - 1, which lies in
no segment, since a length is at most 2^32 - 1 (log 10). -/
def State.placeOffset (s : State) : Word := if s.ip = BitVec.allOnes 32 then 0#32 else s.ip

/-- Place a word where the next fetch reads. -/
def State.placeWord (s : State) (w : Word) : State :=
  (s.withMem (s.mem.install ((s.mem.seg0.reach s.placeOffset).set s.placeOffset w))).setIp s.placeOffset

/-- Let the next step be taken: status running with no fault record, and no cancellation at this boundary (log 10). -/
def State.makeReady (s : State) : State :=
  { s with
    status := .running
    faultRecord := none
    host := { s.host with cancelIn := if s.host.cancelIn = some 0 then none else s.host.cancelIn } }

end Sys2Proof.Machine
end

