-- ==== Sys2Proof/Machine/Step.lean ====
section
/-! DEFINITION. One step of the UM core (spec/42_dispatch_and_control.md R83). -/

namespace Sys2Proof.Machine

/-- One step (R83): the fetch boundary, the fetch, `ip <- ip + 1`, decode, execute. -/
def step (s : State) : Host.Outcome State Fault Refusal :=
  match s.boundary with
  | .stop f => .fault f
  | .go =>
    match s.passBoundary.fetchWord with
    | .error k => .next (s.passBoundary.raise k)
    | .ok w => exec (decode w) s.passBoundary.advance

/-- The state with an instruction word of the opcode table where step fetches its next instruction, ready to run it. -/
def State.withFetchWord (s : State) (nbits w : Nat) : State :=
  (s.makeReady).placeWord (BitVec.ofNat 32 (w % 2 ^ nbits))

end Sys2Proof.Machine
end

