-- ==== Sys2Proof/Machine/Controls.lean ====
section
/-! DEFINITION. The dispatcher's controls for each opcode: the table of spec/10_state.md R29, with the register roles of
R12, the memory users of spec/20_memory.md R35 and the host callers of spec/43_host_io.md R92. Claims say that exec
keeps to this table; exec itself does not read it. -/

namespace Sys2Proof.Machine

/-- The unit that acts (R28, R29). -/
inductive ActingUnit where
  | none
  | translatorRead
  | translatorWrite
  | alu (op : AluOp)
  | allocatorAlloc
  | allocatorFree
  | allocatorInstall
  | hostWrite
  | hostRead
deriving DecidableEq, Repr

/-- The controls: the acting unit, the register the write port addresses (none: `we = 0`), and the register that gives
the next ip (none: the incremented ip). -/
structure Controls where
  unit   : ActingUnit
  wa     : Option Reg
  target : Option Reg
deriving DecidableEq, Repr

/-- The table of R29. The illegal words act on nothing (R67). -/
def controls : Instr → Controls
  | .cmov a _ _ => ⟨.none, some a, none⟩
  | .index a _ _ => ⟨.translatorRead, some a, none⟩
  | .amend _ _ _ => ⟨.translatorWrite, none, none⟩
  | .add a _ _ => ⟨.alu .add, some a, none⟩
  | .mul a _ _ => ⟨.alu .mul, some a, none⟩
  | .div a _ _ => ⟨.alu .div, some a, none⟩
  | .nand a _ _ => ⟨.alu .nand, some a, none⟩
  | .halt => ⟨.none, none, none⟩
  | .alloc b _ => ⟨.allocatorAlloc, some b, none⟩
  | .abandon _ => ⟨.allocatorFree, none, none⟩
  | .out _ => ⟨.hostWrite, none, none⟩
  | .inp c => ⟨.hostRead, some c, none⟩
  | .loadprog _ c => ⟨.allocatorInstall, none, some c⟩
  | .lc a _ => ⟨.none, some a, none⟩
  | .illegal14 => ⟨.none, none, none⟩
  | .illegal15 => ⟨.none, none, none⟩

/-- The unit changes the memory store (R35). -/
def ActingUnit.changesMemory : ActingUnit → Bool
  | .translatorWrite | .allocatorAlloc | .allocatorFree | .allocatorInstall => true
  | .none | .translatorRead | .alu _ | .hostWrite | .hostRead => false

/-- The unit makes a byte call to the host (R92). -/
def ActingUnit.callsHost : ActingUnit → Bool
  | .hostWrite | .hostRead => true
  | .none | .translatorRead | .translatorWrite | .alu _ | .allocatorAlloc | .allocatorFree | .allocatorInstall => false

end Sys2Proof.Machine
end

