-- ==== Sys2Proof/Machine/Boot.lean ====
section
/-! DEFINITION. VM init from an image (spec/70_reset_and_hazards.md R114 to R117, R119, R120). -/

namespace Sys2Proof.Machine

/-- What a run takes from outside beside its image: the parameters that R5 leaves open (logs 3 to 7). -/
structure Environment where
  oom      : Answers Bool
  input    : Answers ReadAnswer
  writes   : Answers WriteAnswer
  cancelIn : Option Nat
  picks    : List Word
  policy   : Policy
deriving DecidableEq, Repr

/-- The reference host of 92 D12, with a given input, and the reference policy of R52. -/
def Environment.reference (input : List Byte) : Environment :=
  { oom := ⟨[], .always false⟩
    input := ⟨input.map .byte, .always .eof⟩
    writes := ⟨[], .always .ok⟩
    cancelIn := none
    picks := []
    policy := .reference }

/-- VM init from the word sequence P in an environment (R116): P is installed as segment 0, everything else of the core as
after reset, the allocator in its policy's initial state. -/
def State.init (e : Environment) (ws : List Word) : State :=
  { State.reset with
    mem := State.reset.mem.install (Segment.ofWords ws)
    alloc := { State.reset.alloc with picks := e.picks, policy := e.policy }
    host := { oom := e.oom, input := e.input, writes := e.writes, output := [], cancelIn := e.cancelIn } }

/-- The largest image, in bytes: 2^32 - 1 words (R114, 92 D16). -/
def maxImageBytes : Nat := 4 * (2 ^ 32 - 1)

/-- Boot from an image in an environment (R114, R115, R116). An image that is empty or no multiple of 4 is
InvalidImageSize, before any state exists; one of more than 2^32 - 1 words is outside the model (log 18). -/
def boot (e : Environment) (image : List Byte) : Host.Outcome State Fault Refusal :=
  if image.length = 0 ∨ image.length % 4 ≠ 0 then .fault .invalidImageSize
  else if maxImageBytes < image.length then .refused .imageTooLarge
  else .next (State.init e (imageWords image))

end Sys2Proof.Machine
end

