-- ==== Sys2Proof/Machine/Run.lean ====
section
/-! DEFINITION. The outcomes of a step in the spec's own terms (spec/00_scope.md R10), a run, and what is left after
teardown (spec/70_reset_and_hazards.md R121). -/

namespace Sys2Proof.Machine

/-- Whether the next step is an Input that the host has not answered (R95). -/
def State.waits (s : State) : Bool :=
  match s.boundary, s.fetchWord with
  | .go, .ok w =>
    match decode w with
    | .inp _ => decide (s.host.nextRead = .notYet)
    | _ => false
  | _, _ => false

/-- The five outcomes of one step (R10). -/
inductive StepOutcome where
  | next (s : State)
  | halted (s : State)
  | faulted (s : State) (r : FaultRecord)
  | wait
  | cancelled (s : State)
deriving DecidableEq, Repr

/-- The outcome of the step taken in a state, in the terms of R10; none in a terminal status, where no step is taken. -/
def State.outcome (s : State) : Option StepOutcome :=
  match step s with
  | .fault .cancelled => some (.cancelled s)
  | .fault _ => none
  | .refused _ => none
  | .next t =>
    if s.waits then some .wait
    else match t.status, t.faultRecord with
      | .halted, _ => some (.halted t)
      | .faulted, some r => some (.faulted t r)
      | _, _ => some (.next t)

/-- How a run ended (R121: the termination status). -/
inductive Ended where
  | halted
  | faulted (r : FaultRecord)
  | cancelled
  /-- InvalidImageSize: the run ended before a state existed (R114) -/
  | invalidImage
deriving DecidableEq, Repr

/-- The fault of the taxonomy that ended a run (R98). -/
def Ended.fault? : Ended → Option FaultKind
  | .halted => none
  | .faulted r => some r.kind
  | .cancelled => none
  | .invalidImage => some .invalidImageSize

/-- At most `fuel` steps; the last state, and how the run ended if it did. -/
def runFor : Nat → State → State × Option Ended
  | 0, s => (s, none)
  | n + 1, s =>
    match s.outcome with
    | some (.next t) => runFor n t
    | some (.halted t) => (t, some .halted)
    | some (.faulted t r) => (t, some (.faulted r))
    | some .wait => match step s with
      | .next t => runFor n t
      | _ => (s, none)
    | some (.cancelled t) => (t, some .cancelled)
    | none => (s, none)

/-- A whole run: boot from an image in an environment, then at most `fuel` steps; the last state, if there ever was one,
and how the run ended if it did (R114, R116). An image that is too large has no run (92 D16). -/
def runImage (fuel : Nat) (e : Environment) (image : List Byte) : Option State × Option Ended :=
  match boot e image with
  | .next s => ((runFor fuel s).1, (runFor fuel s).2)
  | .fault _ => (none, some .invalidImage)
  | .refused _ => (none, none)

/-- What is left after teardown: the output stream and the termination status; every segment and register is gone
(R121). -/
structure Remains where
  output : List Byte
  ended  : Ended
deriving DecidableEq, Repr

/-- Teardown of the last state of a run (R121). -/
def State.teardown (s : State) (e : Ended) : Remains := ⟨s.host.output, e⟩

/-- The process exit code: 0 on normal halt, `faultExitCode` on any fault, InvalidImageSize at boot among them; the spec
gives none for a cancelled run (00 R4, 92 D18; log 15). -/
def Ended.exitCode : Ended → Option Nat
  | .halted => some 0
  | .faulted _ => some Config.faultExitCode
  | .cancelled => none
  | .invalidImage => some Config.faultExitCode

end Sys2Proof.Machine
end

