-- ==== Sys2Proof/Safety.lean ====
section
/-! DEFINITION. What a sound state and a safe run are, in the terms claims use. -/

namespace Sys2Proof.Machine

/-- The allocator's hidden state agrees with the store: the free list repeats nothing and names only identifiers Alloc
may return (R40, R52); the counter lies in 1 .. 2^32 (4294967296). -/
abbrev AllocState.wf (a : AllocState) (m : Memory) : Prop :=
  a.free.Nodup ∧ a.free.all m.fresh = true ∧ 1 ≤ a.next ∧ a.next ≤ 4294967296

/-- The fault record agrees with the status: it is there exactly in status Faulted (R19), it holds the ip of the raise,
and it is never InvalidImageSize, which is raised before any state exists (R98, R99). -/
abbrev State.recordAgrees (s : State) : Prop :=
  (s.status = .faulted ↔ s.faultRecord.isSome = true) ∧
  ∀ r ∈ s.faultRecord, r.ip = s.ip ∧ r.kind ≠ .invalidImageSize

/-- The invariant of the machine. -/
abbrev State.Inv (s : State) : Prop := s.mem.wf ∧ s.alloc.wf s.mem ∧ s.recordAgrees

/-- The reference policy is in force, and no pick is queued before it (R52; log 3). -/
abbrev AllocState.isReference (a : AllocState) : Prop := a.picks = [] ∧ a.policy = .reference

/-- The state of the reference policy (R18, R52): it is in force; the counter is the lowest identifier never
yet issued, so the free list lies below it, what lies below it is live or on the free list, and nothing else is live. -/
def State.ReferencePolicy (s : State) : Prop :=
  s.alloc.isReference ∧
  (∀ k ∈ s.alloc.free, k.toNat < s.alloc.next) ∧
  ∀ k : Word, k ≠ 0#32 →
    (k.toNat < s.alloc.next → s.mem.live k = true ∨ k ∈ s.alloc.free) ∧
    (s.alloc.next ≤ k.toNat → s.mem.live k = false)

/-- Every answer of a rest has a property, where f gives the answers of the hosts. -/
def Rest.All {α : Type} (f : Nat → Nat → α) (p : α → Prop) : Rest α → Prop
  | .always a => p a
  | .oracle h n => ∀ k, n ≤ k → p (f h k)

/-- Every answer still to come has a property. -/
abbrev Answers.All {α : Type} (f : Nat → Nat → α) (p : α → Prop) (q : Answers α) : Prop :=
  (∀ a ∈ q.queue, p a) ∧ q.rest.All f p

/-- The host never refuses storage and never fails a read or a write (R103). -/
abbrev HostState.benign (h : HostState) : Prop :=
  h.oom.All Config.oomDraw (· = false) ∧ h.input.All Config.hostIn (· ≠ .ioerr) ∧
  h.writes.All Config.hostOut (· = .ok)

/-- The faults that come from the host; every other comes from the guest program or the image (R103). -/
def FaultKind.fromHost : FaultKind → Bool
  | .hostIOError | .outOfHostMemory => true
  | .invalidImageSize | .instructionPointerOutOfBounds | .illegalInstruction | .invalidSegment
  | .segmentOffsetOutOfBounds | .abandonSegmentZero | .divideByZero | .outputOutOfRange => false

/-- Two states of the core are the same but for the host's side. -/
def State.sameCore (s t : State) : Prop :=
  t.regs = s.regs ∧ t.ip = s.ip ∧ t.mem = s.mem ∧ t.status = s.status ∧ t.faultRecord = s.faultRecord ∧
  t.alloc = s.alloc

/-- Memory reads as before: every word of every segment, every length, and which identifiers are live. -/
def Memory.readsAs (m m' : Memory) : Prop :=
  (∀ id off, m'.read id off = m.read id off) ∧ (∀ id, m'.length? id = m.length? id) ∧
  ∀ id, m'.live id = m.live id

/-- Every register but those named is unchanged. -/
def State.regsSameBut (rs : List Reg) (s t : State) : Prop := ∀ r, r ∉ rs → t.x r = s.x r

/-- What no plain instruction touches: ip as the fetch left it, the status, the fault record, the allocator and the
host. -/
def State.engineSame (s t : State) : Prop :=
  t.ip = s.ip ∧ t.status = s.status ∧ t.faultRecord = s.faultRecord ∧ t.alloc = s.alloc ∧ t.host = s.host

/-- The instruction wrote v to register r and changed nothing else. -/
def State.wroteOnly (s t : State) (r : Reg) (v : Word) : Prop :=
  t.x r = v ∧ s.regsSameBut [r] t ∧ s.mem.readsAs t.mem ∧ s.engineSame t

/-- Segment id of store m' is as in store m: the same words read, the same length, and live or not as before. -/
def Memory.segmentAs (m m' : Memory) (id : Word) : Prop :=
  (∀ off, m'.read id off = m.read id off) ∧ m'.length? id = m.length? id ∧ m'.live id = m.live id

/-- Nothing of the faulting instruction is committed: the status and the record alone change (R97, R99, R100). -/
def State.faultedOnly (s t : State) (k : FaultKind) : Prop :=
  t.status = .faulted ∧ t.faultRecord = some ⟨k, s.ip⟩ ∧
  (∀ r, t.x r = s.x r) ∧ t.ip = s.ip ∧ s.mem.readsAs t.mem ∧ t.alloc = s.alloc

/-- The two faults of a word access, liveness first (R38, R39, R102). -/
def Memory.accessFaults (m : Memory) (id off : Word) (k : FaultKind) : Prop :=
  (k = .invalidSegment ∧ m.live id = false) ∨
  (k = .segmentOffsetOutOfBounds ∧ ∃ n, m.length? id = some n ∧ n.toNat ≤ off.toNat)

/-- The fault an executing instruction meets: the table of R102, with the illegal words of R67. -/
def State.faultsWith (s : State) : Instr → FaultKind → Prop
  | .index _ b c, k => s.mem.accessFaults (s.x b) (s.x c) k
  | .amend a b _, k => s.mem.accessFaults (s.x a) (s.x b) k
  | .div _ _ c, k => k = .divideByZero ∧ s.x c = 0#32
  | .alloc _ _, k => k = .outOfHostMemory ∧ (s.host.nextOom = true ∨ ∀ id, id ≠ 0#32 → s.mem.live id = true)
  | .abandon c, k =>
    (k = .abandonSegmentZero ∧ s.x c = 0#32) ∨
    (k = .invalidSegment ∧ s.x c ≠ 0#32 ∧ s.mem.live (s.x c) = false)
  | .out c, k =>
    (k = .outputOutOfRange ∧ 255 < (s.x c).toNat) ∨
    (k = .hostIOError ∧ (s.x c).toNat ≤ 255 ∧ s.host.nextWrite ≠ .ok)
  | .inp _, k => k = .hostIOError ∧ s.host.nextRead = .ioerr
  | .loadprog b _, k =>
    (k = .invalidSegment ∧ s.x b ≠ 0#32 ∧ s.mem.live (s.x b) = false) ∨
    (k = .outOfHostMemory ∧ s.x b ≠ 0#32 ∧ s.mem.live (s.x b) = true ∧ s.host.nextOom = true)
  | .illegal14, k => k = .illegalInstruction
  | .illegal15, k => k = .illegalInstruction
  | .cmov _ _ _, _ => False
  | .add _ _ _, _ => False
  | .mul _ _ _, _ => False
  | .nand _ _ _, _ => False
  | .halt, _ => False
  | .lc _ _, _ => False

/-- The step is taken and is not cancelled: status Running, and the host lets this fetch boundary pass (R83, R107). -/
abbrev State.stepsOn (s : State) : Prop := s.status = .running ∧ s.host.cancelIn ≠ some 0

end Sys2Proof.Machine
end

