-- ==== Sys2Proof/Certificates/Slice0/Obligations.lean ====
section
/-! DEFINITION. The statements for the provers: each formalises a rule of spec/ or rests on the sections its entry in
OBLIGATIONS.json cites. A statement about a free answer of the host or of the allocation policy holds for every value of
the State fields that hold those answers (logs 3 to 7). -/

open Sys2Proof Sys2Proof.Machine

/-! ## Encoding -/

/-- The shift-and-mask formulas of R61, R62 and R63, read as numbers. -/
def Obligations.FieldsAreShiftAndMask : Prop :=
  ∀ w : Word,
    (opField w).toNat = w.toNat / 2 ^ 28 ∧
    (aField w).toNat = w.toNat / 2 ^ 6 % 8 ∧
    (bField w).toNat = w.toNat / 2 ^ 3 % 8 ∧
    (cField w).toNat = w.toNat % 8 ∧
    (aLcField w).toNat = w.toNat / 2 ^ 25 % 8 ∧
    (immField w).toNat = w.toNat % 2 ^ 25

/-- The decoder of R64, opcode by opcode as R66 numbers them, with a selector value n naming x[n] and the immediate
zero-extended. R64's one result Illegal is two constructors, one for each illegal row of the opcode table: the model's
inference (log 11, DEDUCED); that executing them raises IllegalInstruction is another statement. -/
def Obligations.DecoderIsTheTotalFunction : Prop :=
  (∀ w : Word,
    let a := Reg.ofBits (aField w)
    let b := Reg.ofBits (bField w)
    let c := Reg.ofBits (cField w)
    (opField w = 0#4 → decode w = .cmov a b c) ∧ (opField w = 1#4 → decode w = .index a b c) ∧
    (opField w = 2#4 → decode w = .amend a b c) ∧ (opField w = 3#4 → decode w = .add a b c) ∧
    (opField w = 4#4 → decode w = .mul a b c) ∧ (opField w = 5#4 → decode w = .div a b c) ∧
    (opField w = 6#4 → decode w = .nand a b c) ∧ (opField w = 7#4 → decode w = .halt) ∧
    (opField w = 8#4 → decode w = .alloc b c) ∧ (opField w = 9#4 → decode w = .abandon c) ∧
    (opField w = 10#4 → decode w = .out c) ∧ (opField w = 11#4 → decode w = .inp c) ∧
    (opField w = 12#4 → decode w = .loadprog b c) ∧
    (opField w = 13#4 → ∃ imm : Word, imm.toNat = (immField w).toNat ∧
      decode w = .lc (Reg.ofBits (aLcField w)) imm) ∧
    (opField w = 14#4 → decode w = .illegal14) ∧ (opField w = 15#4 → decode w = .illegal15)) ∧
  Reg.ofBits 0#3 = .r0 ∧ Reg.ofBits 1#3 = .r1 ∧ Reg.ofBits 2#3 = .r2 ∧ Reg.ofBits 3#3 = .r3 ∧
  Reg.ofBits 4#3 = .r4 ∧ Reg.ofBits 5#3 = .r5 ∧ Reg.ofBits 6#3 = .r6 ∧ Reg.ofBits 7#3 = .r7

/-- The only illegal encodings are the words of 0xE0000000 and above (R67). The split into two constructors is the
opcode table's (log 11). -/
def Obligations.IllegalWordsAreFromE0000000 : Prop :=
  ∀ w : Word, (decode w = .illegal14 ∨ decode w = .illegal15) ↔ 0xE0000000 ≤ w.toNat

/-- Decoding gives back every well-formed instruction that was encoded (R64, R69). -/
def Obligations.DecodeOfEncodeIsIdentity : Prop := ∀ i : Instr, i.wf → decode (encode i) = i

/-- Every word decodes to a well-formed instruction, and to the same one as its canonical form (R64, R65, R69). -/
def Obligations.CanonicalWordDecodesTheSame : Prop :=
  ∀ w : Word, (decode w).wf ∧ decode (canonical w) = decode w

/-- Two words that differ only in ignored bits decode the same (R65); that the decoder does not check them is the spec's
decision D20. -/
def Obligations.IgnoredBitsDoNotMatter : Prop :=
  ∀ w w' : Word, opField w = opField w' →
    ((opField w).toNat ≤ 6 → aField w = aField w' ∧ bField w = bField w' ∧ cField w = cField w') →
    (opField w = 8#4 ∨ opField w = 12#4 → bField w = bField w' ∧ cField w = cField w') →
    (opField w = 9#4 ∨ opField w = 10#4 ∨ opField w = 11#4 → cField w = cField w') →
    (opField w = 13#4 → aLcField w = aLcField w' ∧ immField w = immField w') →
    decode w = decode w'

/-- Sample words of 95_test_vectors §2.1 and §2.7. -/
def Obligations.SampleWordsDecode : Prop :=
  decode 0x0FFFFE00#32 = .cmov .r0 .r0 .r0 ∧ decode 0x1000014C#32 = .index .r5 .r1 .r4 ∧
  decode 0x300001FF#32 = .add .r7 .r7 .r7 ∧ decode 0x7FFFFFFF#32 = .halt ∧
  decode 0x8000002A#32 = .alloc .r5 .r2 ∧ decode 0xB0000003#32 = .inp .r3 ∧
  decode 0xC0000028#32 = .loadprog .r5 .r0 ∧ decode 0xD3FFFFFF#32 = .lc .r1 0x1FFFFFF#32 ∧
  decode 0xE0000007#32 = .illegal14

/-- An image of 4N bytes becomes N words, word k big-endian from bytes 4k to 4k + 3 (R44). -/
def Obligations.ImageIsBigEndian : Prop :=
  ∀ (image : List Byte) (n : Nat), image.length = 4 * n →
    (imageWords image).length = n ∧
    ∀ k, k < n → ∃ b0 b1 b2 b3 : Byte, ∃ w : Word,
      image[4 * k]? = some b0 ∧ image[4 * k + 1]? = some b1 ∧ image[4 * k + 2]? = some b2 ∧
      image[4 * k + 3]? = some b3 ∧ (imageWords image)[k]? = some w ∧
      w.toNat = b0.toNat * 2 ^ 24 + b1.toNat * 2 ^ 16 + b2.toNat * 2 ^ 8 + b3.toNat

/-! ## Boot -/

/-- InvalidImageSize exactly for an image whose length is not a positive multiple of 4 (R114); the refusal above
2^32 - 1 words is the spec's decision D16 (log 18). -/
def Obligations.BootChecksTheImageSize : Prop :=
  ∀ (e : Environment) (image : List Byte),
    (boot e image = .fault .invalidImageSize ↔ image.length = 0 ∨ image.length % 4 ≠ 0) ∧
    (boot e image = .refused .imageTooLarge ↔
      image.length ≠ 0 ∧ image.length % 4 = 0 ∧ 4 * (2 ^ 32 - 1) < image.length)

/-- VM init from the words of a valid image, in every environment of host answers and policy (R116, R31, R5). That no other segment is live, that there is no fault record and
that the allocator starts so are the spec's decisions D17 and D4. -/
def Obligations.BootSetsTheInitialState : Prop :=
  ∀ (e : Environment) (image : List Byte) (n : Nat), image.length = 4 * n → 0 < n → n < 2 ^ 32 →
    ∃ s : State, boot e image = .next s ∧
      (∀ r, s.x r = 0#32) ∧ s.ip = 0#32 ∧ s.status = .running ∧ s.faultRecord = none ∧
      (∀ id, id ≠ 0#32 → s.mem.live id = false) ∧
      s.mem.length? 0#32 = some (BitVec.ofNat 32 n) ∧
      (∀ k, k < n → ∃ w, (imageWords image)[k]? = some w ∧ s.mem.read 0#32 (BitVec.ofNat 32 k) = .ok w) ∧
      s.alloc = ⟨[], 1, e.picks, e.policy⟩ ∧ s.host = ⟨e.oom, e.input, e.writes, [], e.cancelIn⟩

/-! ## Move, ALU, Load-Constant: results, completion and frames -/

/-- The ALU's laws for all words (R25, R72): sums and products modulo 2^32, unsigned floor division, divide-by-zero for
divisor 0 alone, and not-and bit by bit. -/
def Obligations.AluComputesUnsignedModulo : Prop :=
  ∀ p q : Word,
    (alu .add p q).r.toNat = (p.toNat + q.toNat) % 2 ^ 32 ∧
    (alu .mul p q).r.toNat = (p.toNat * q.toNat) % 2 ^ 32 ∧
    (q ≠ 0#32 → (alu .div p q).r.toNat = p.toNat / q.toNat) ∧
    (∀ i, i < 32 → (alu .nand p q).r.getLsbD i = !(p.getLsbD i && q.getLsbD i)) ∧
    ((alu .div p q).divzero = true ↔ q = 0#32) ∧
    ∀ op, op ≠ .div → (alu op p q).divzero = false

/-- Conditional-Move (R73): the encoding, the conditional write, no flag, no fault, nothing else changed. -/
def Obligations.ConditionalMoveWritesWhenTrue : Prop :=
  (∀ w, opField w = 0#4 → decode w = .cmov (Reg.ofBits (aField w)) (Reg.ofBits (bField w)) (Reg.ofBits (cField w))) ∧
  ∀ a b c s, ∃ t, exec (.cmov a b c) s = .next t ∧
    s.wroteOnly t a (if s.x c ≠ 0#32 then s.x b else s.x a)

/-- Add (R74): the encoding, the sum modulo 2^32, no flag, no fault, nothing else changed. -/
def Obligations.AddWritesTheSum : Prop :=
  (∀ w, opField w = 3#4 → decode w = .add (Reg.ofBits (aField w)) (Reg.ofBits (bField w)) (Reg.ofBits (cField w))) ∧
  ∀ a b c s, ∃ t v, exec (.add a b c) s = .next t ∧ s.wroteOnly t a v ∧
    v.toNat = ((s.x b).toNat + (s.x c).toNat) % 2 ^ 32

/-- Multiply (R75): the encoding, the low 32 bits of the product, no flag, no fault, nothing else changed. -/
def Obligations.MultiplyWritesTheLowProduct : Prop :=
  (∀ w, opField w = 4#4 → decode w = .mul (Reg.ofBits (aField w)) (Reg.ofBits (bField w)) (Reg.ofBits (cField w))) ∧
  ∀ a b c s, ∃ t v, exec (.mul a b c) s = .next t ∧ s.wroteOnly t a v ∧
    v.toNat = ((s.x b).toNat * (s.x c).toNat) % 2 ^ 32

/-- Divide (R76): with a non-zero divisor the unsigned quotient is written and nothing else changes. -/
def Obligations.DivideWritesTheQuotient : Prop :=
  ∀ a b c s, s.x c ≠ 0#32 → ∃ t v, exec (.div a b c) s = .next t ∧ s.wroteOnly t a v ∧
    v.toNat = (s.x b).toNat / (s.x c).toNat

/-- Divide by zero (R76, R97, R100): DivideByZero for every dividend, and nothing is committed. A raise as a next state
is log 1; the ip of the record is the spec's decision D9. -/
def Obligations.DivideByZeroFaults : Prop :=
  ∀ a b c s, s.x c = 0#32 → ∃ t, exec (.div a b c) s = .next t ∧ s.faultedOnly t .divideByZero ∧ t.host = s.host

/-- Not-And (R77): the encoding, bit by bit, no flag, no fault, nothing else changed. -/
def Obligations.NotAndWritesBitwise : Prop :=
  (∀ w, opField w = 6#4 → decode w = .nand (Reg.ofBits (aField w)) (Reg.ofBits (bField w)) (Reg.ofBits (cField w))) ∧
  ∀ a b c s, ∃ t v, exec (.nand a b c) s = .next t ∧ s.wroteOnly t a v ∧
    ∀ i, i < 32 → v.getLsbD i = !((s.x b).getLsbD i && (s.x c).getLsbD i)

/-- `mov rA, rB` as two words (R71): two Not-Ands copy x[B] into x[A] and change nothing else, also when A = B. -/
def Obligations.TwoNotAndsMoveARegister : Prop :=
  ∀ a b s t u, exec (.nand a b b) s = .next t → exec (.nand a a a) t = .next u → s.wroteOnly u a (s.x b)

/-- `nop` is `cmov r0, r0, r0` (R71): the state is unchanged. -/
def Obligations.NopChangesNothing : Prop := ∀ s, exec (.cmov .r0 .r0 .r0) s = .next s

/-- Load-Constant (R78): the encoding, the 25-bit immediate zero-extended, no flag, no fault, no other register. -/
def Obligations.LoadConstantWritesTheImmediate : Prop :=
  (∀ w, opField w = 13#4 → ∃ imm : Word, imm.toNat = w.toNat % 2 ^ 25 ∧
    decode w = .lc (Reg.ofBits (aLcField w)) imm) ∧
  ∀ a imm s, ∃ t, exec (.lc a imm) s = .next t ∧ s.wroteOnly t a imm

/-! ## Segment access and allocation: results, completion and frames -/

/-- Array-Index (R79, R38): a live segment and an offset below its length give the word there, and only x[A] changes. -/
def Obligations.ArrayIndexReadsTheWord : Prop :=
  ∀ a b c s n, s.mem.length? (s.x b) = some n → (s.x c).toNat < n.toNat →
    ∃ t v, s.mem.read (s.x b) (s.x c) = .ok v ∧ exec (.index a b c) s = .next t ∧ s.wroteOnly t a v

/-- Array-Amend (R80, R39): the word at (x[A], x[B]) becomes x[C]; every other word, every length, every register and the
engine stay as they were. -/
def Obligations.ArrayAmendWritesTheWord : Prop :=
  ∀ a b c s n, s.mem.length? (s.x a) = some n → (s.x b).toNat < n.toNat →
    ∃ t, exec (.amend a b c) s = .next t ∧ t.mem.read (s.x a) (s.x b) = .ok (s.x c) ∧
      (∀ id off, (id, off) ≠ (s.x a, s.x b) → t.mem.read id off = s.mem.read id off) ∧
      (∀ id, t.mem.length? id = s.mem.length? id) ∧ (∀ id, t.mem.live id = s.mem.live id) ∧
      s.regsSameBut [] t ∧ s.engineSame t

/-- Allocate (R81, R40, R59): when the host does not refuse and a non-zero identifier is free, x[B] receives an
identifier that is not 0 and was not live, naming x[C] zero words; nothing else changes but the allocator's own state.
Length 0 is allowed (the spec's decision D6). Which identifier is left open (D4): the statement holds for every policy,
and the choice of an implementation's own policy, where it keeps R40's constraint, is the identifier issued (log 3). -/
def Obligations.AllocateCreatesAFreshZeroSegment : Prop :=
  ∀ b c s, s.mem.wf → s.host.nextOom = false → (∃ id, id ≠ 0#32 ∧ s.mem.live id = false) →
    ∃ t k, exec (.alloc b c) s = .next t ∧ k ≠ 0#32 ∧ s.mem.live k = false ∧
      t.x b = k ∧ s.regsSameBut [b] t ∧ t.mem.live k = true ∧ t.mem.length? k = some (s.x c) ∧
      (∀ off : Word, off.toNat < (s.x c).toNat → t.mem.read k off = .ok 0#32) ∧
      (∀ id, id ≠ k → s.mem.segmentAs t.mem id) ∧
      t.ip = s.ip ∧ t.status = s.status ∧ t.faultRecord = s.faultRecord ∧
      t.host = { s.host with oom := s.host.oom.tail } ∧
      ∀ p h, s.alloc.picks = [] → s.alloc.policy = .own p h →
        (k = Config.policyChoose p h ∨ s.mem.fresh (Config.policyChoose p h) = false) ∧
        t.alloc.policy = .own p (Config.policyUpdate p h k)

/-- The reference policy (R52; the spec's decision D4, log 3): where it is in force, Allocate takes the most
recently freed identifier, else the counter `next`. -/
def Obligations.ReferencePolicyReusesTheLastFreed : Prop :=
  ∀ b c s, s.host.nextOom = false → s.alloc.isReference →
    (∀ k rest, s.alloc.free = k :: rest → s.mem.fresh k = true →
      ∃ t, exec (.alloc b c) s = .next t ∧ t.x b = k ∧ t.alloc.free = rest ∧ t.alloc.next = s.alloc.next) ∧
    (s.alloc.free = [] → s.alloc.next < 2 ^ 32 → s.mem.fresh (BitVec.ofNat 32 s.alloc.next) = true →
      ∃ t, exec (.alloc b c) s = .next t ∧ t.x b = BitVec.ofNat 32 s.alloc.next ∧ t.alloc.free = [] ∧
        t.alloc.next = s.alloc.next + 1)

/-- Under the reference policy (R52; the spec's decision D4, log 3) an identifier freed by Abandon is the one the next
Allocate returns. -/
def Obligations.AbandonThenAllocateReuses : Prop :=
  ∀ b c d s t u, s.alloc.isReference → s.x c ≠ 0#32 → s.mem.live (s.x c) = true → s.host.nextOom = false →
    exec (.abandon c) s = .next t → exec (.alloc b d) t = .next u → u.x b = s.x c

/-- Abandon (R82, R41): the identifier is no longer live, so an access through it is InvalidSegment; every other segment,
every register and the engine stay; the identifier goes onto the free list, and the policy in force is told of it (R41,
R52, log 3). -/
def Obligations.AbandonFreesTheSegment : Prop :=
  ∀ c s, s.x c ≠ 0#32 → s.mem.live (s.x c) = true →
    ∃ t, exec (.abandon c) s = .next t ∧ t.mem.live (s.x c) = false ∧
      (∀ off, t.mem.read (s.x c) off = .error .invalidSegment) ∧
      (∀ id, id ≠ s.x c → s.mem.segmentAs t.mem id) ∧
      s.regsSameBut [] t ∧ t.ip = s.ip ∧ t.status = s.status ∧ t.faultRecord = s.faultRecord ∧ t.host = s.host ∧
      t.alloc = { s.alloc with free := s.x c :: s.alloc.free, policy := s.alloc.policy.release (s.x c) }

/-! ## Control transfer -/

/-- Halt (R86): the status becomes Halted, registers, memory, ip, allocator and host stay, and no further step is taken
(log 2). -/
def Obligations.HaltStopsTheEngine : Prop :=
  ∀ s, ∃ t, exec .halt s = .next t ∧ t.status = .halted ∧ s.regsSameBut [] t ∧ s.mem.readsAs t.mem ∧
    t.ip = s.ip ∧ t.faultRecord = s.faultRecord ∧ t.alloc = s.alloc ∧ t.host = s.host ∧
    step t = .fault .engineHalted

/-- Load-Program with x[B] = 0 (R87): ip becomes x[C] and nothing else changes; no storage is asked for. -/
def Obligations.LoadProgramJumps : Prop :=
  ∀ b c s, s.x b = 0#32 → ∃ t, exec (.loadprog b c) s = .next t ∧ t.ip = s.x c ∧ s.regsSameBut [] t ∧
    s.mem.readsAs t.mem ∧ t.status = s.status ∧ t.faultRecord = s.faultRecord ∧ t.alloc = s.alloc ∧ t.host = s.host

/-- Load-Program with x[B] live and not 0 (R87, R42, R43): segment 0 becomes a copy of segment x[B], ip becomes x[C], no
other segment and no register changes. An empty source is allowed (the spec's decision D7). -/
def Obligations.LoadProgramInstallsACopy : Prop :=
  ∀ b c s, s.x b ≠ 0#32 → s.mem.live (s.x b) = true → s.host.nextOom = false →
    ∃ t, exec (.loadprog b c) s = .next t ∧ t.ip = s.x c ∧
      (∀ off, t.mem.read 0#32 off = s.mem.read (s.x b) off) ∧
      t.mem.length? 0#32 = s.mem.length? (s.x b) ∧
      (∀ id, id ≠ 0#32 → s.mem.segmentAs t.mem id) ∧
      s.regsSameBut [] t ∧ t.status = s.status ∧ t.faultRecord = s.faultRecord ∧ t.alloc = s.alloc ∧
      t.host = { s.host with oom := s.host.oom.tail }

/-- Install makes S segment 0 and changes no other segment (R43). -/
def Obligations.InstallReplacesSegmentZeroOnly : Prop :=
  ∀ (m : Memory) (g : Segment),
    (m.install g).length? 0#32 = some g.len ∧
    (∀ off : Word, off.toNat < g.len.toNat → (m.install g).read 0#32 off = .ok (g.get off)) ∧
    ∀ id, id ≠ 0#32 → m.segmentAs (m.install g) id

/-- After Load-Program copied segment k, writing segment k leaves segment 0 alone and writing segment 0 leaves segment k
alone (R58). -/
def Obligations.LoadedCopyIsIndependent : Prop :=
  ∀ b c s t, s.x b ≠ 0#32 → s.mem.live (s.x b) = true → s.host.nextOom = false → exec (.loadprog b c) s = .next t →
    t.mem.live (s.x b) = true ∧
    (∀ off v m, t.mem.write (s.x b) off v = .ok m → t.mem.segmentAs m 0#32) ∧
    (∀ off v m, t.mem.write 0#32 off v = .ok m → t.mem.segmentAs m (s.x b))

/-- A word of opcode 14 or 15 (R67, R83, R98): IllegalInstruction, and nothing is committed. A raise as a next state is
log 1; the ip of the record is the spec's decision D9. -/
def Obligations.IllegalWordsRaiseIllegalInstruction : Prop :=
  ∀ s, (∃ t, exec .illegal14 s = .next t ∧ s.faultedOnly t .illegalInstruction ∧ t.host = s.host) ∧
    ∃ t, exec .illegal15 s = .next t ∧ s.faultedOnly t .illegalInstruction ∧ t.host = s.host

/-! ## Host byte I/O -/

/-- Output (R93): a value of at most 255 that the host accepts is sent as one byte, by exactly one call, and nothing of
the core changes. -/
def Obligations.OutputSendsTheByte : Prop :=
  ∀ c s, (s.x c).toNat ≤ 255 → s.host.nextWrite = .ok →
    ∃ t b, exec (.out c) s = .next t ∧ b.toNat = (s.x c).toNat ∧ s.sameCore t ∧
      t.host = { s.host with output := s.host.output ++ [b], writes := s.host.writes.tail }

/-- Output above 255 (R93): OutputOutOfRange with no host call (logs 1, 6). -/
def Obligations.OutputAboveByteFaults : Prop :=
  ∀ c s, 255 < (s.x c).toNat →
    ∃ t, exec (.out c) s = .next t ∧ s.faultedOnly t .outputOutOfRange ∧ t.host = s.host

/-- A failed host write (R93, R96): HostIOError; the byte may or may not have been delivered (logs 1, 6). -/
def Obligations.FailedWriteFaults : Prop :=
  ∀ c s d, (s.x c).toNat ≤ 255 → s.host.nextWrite = .ioerr d →
    ∃ t b, exec (.out c) s = .next t ∧ b.toNat = (s.x c).toNat ∧ s.faultedOnly t .hostIOError ∧
      t.host.output = (if d then s.host.output ++ [b] else s.host.output)

/-- Input (R94): a byte is written zero-extended, end-of-stream writes 2^32 - 1; only x[C] changes, and one answer is
used. -/
def Obligations.InputWritesByteOrEof : Prop :=
  ∀ c s,
    (∀ v, s.host.nextRead = .byte v →
      ∃ t, exec (.inp c) s = .next t ∧ (t.x c).toNat = v.toNat ∧ s.regsSameBut [c] t ∧ t.ip = s.ip ∧
        s.mem.readsAs t.mem ∧ t.status = s.status ∧ t.faultRecord = s.faultRecord ∧ t.alloc = s.alloc ∧
        t.host = { s.host with input := s.host.input.tail }) ∧
    (s.host.nextRead = .eof →
      ∃ t, exec (.inp c) s = .next t ∧ (t.x c).toNat = 2 ^ 32 - 1 ∧ s.regsSameBut [c] t ∧ t.ip = s.ip ∧
        s.mem.readsAs t.mem ∧ t.status = s.status ∧ t.faultRecord = s.faultRecord ∧ t.alloc = s.alloc ∧
        t.host = { s.host with input := s.host.input.tail })

/-- While the host has no answer, a step at an Input leaves the core's state as it was before the fetch (R95; the spec's
decision D12, log 5). -/
def Obligations.InputWaitsWithoutChange : Prop :=
  ∀ s c, s.stepsOn → s.ip.toNat < s.mem.seg0.len.toNat → decode (s.mem.seg0.get s.ip) = .inp c →
    s.host.nextRead = .notYet → ∃ t, step s = .next t ∧ s.sameCore t ∧ t.host.output = s.host.output

/-! ## The step -/

/-- A step at a running state that is not cancelled, with ip inside segment 0, is the decoded instruction's execution at
the state whose ip is one more (R83); one fetch boundary of the host's count has passed (log 7). -/
def Obligations.StepRunsTheDecodedInstruction : Prop :=
  ∀ s w, s.stepsOn → s.mem.read 0#32 s.ip = .ok w →
    step s = exec (decode w)
      { s with ip := s.ip + 1, host := { s.host with cancelIn := s.host.cancelIn.map Nat.pred } }

/-- A word of the opcode table placed where step fetches next is the instruction that the very next step runs, at the same
registers (R83; logs 9 and 10: withFetchWord stands for the host's load of a program). -/
def Obligations.PlacedWordRunsNext : Prop :=
  ∀ (s : State) (w : Nat), w < 2 ^ 32 →
    ∃ s' : State, step (s.withFetchWord 32 w) = exec (decode (BitVec.ofNat 32 w)) s' ∧
      (∀ r, s'.x r = s.x r) ∧ s'.mem.read 0#32 (s'.ip - 1) = .ok (BitVec.ofNat 32 w) ∧
      ∀ id, id ≠ 0#32 → s.mem.segmentAs s'.mem id

/-- The fetch's increment never wraps (R14). -/
def Obligations.FetchIncrementNeverWraps : Prop :=
  ∀ (s : State) (w : Word), s.mem.read 0#32 s.ip = .ok w → (s.ip + 1).toNat = s.ip.toNat + 1

/-- A fetch at or past the length of segment 0 (R83, R98): InstructionPointerOutOfBounds with ip not incremented (log 1;
the ip of the record is the spec's decision D9). -/
def Obligations.FetchOutOfBoundsFaults : Prop :=
  ∀ s n, s.stepsOn → s.mem.length? 0#32 = some n → n.toNat ≤ s.ip.toNat →
    ∃ t, step s = .next t ∧ s.faultedOnly t .instructionPointerOutOfBounds

/-- Terminal statuses take no step (R90, R97), and the host's cancellation at a fetch boundary comes before every check
of that step (R101, R107; the spec's decisions D8 and D11): logs 2 and 7. -/
def Obligations.NoStepAfterTheEnd : Prop :=
  ∀ s : State, (s.status = .halted → step s = .fault .engineHalted) ∧
    (s.status = .faulted → step s = .fault .engineFaulted) ∧
    (s.status = .running → s.host.cancelIn = some 0 → step s = .fault .cancelled)

/-- The status changes only as R90 says: to Halted by the Halt instruction, to Faulted with a record, else it stays
Running (log 1 for the raise as a next state). -/
def Obligations.StatusChangesOnlyAsStated : Prop :=
  ∀ s t, s.Inv → step s = .next t →
    s.status = .running ∧
    (t.status = .halted ↔
      s.ip.toNat < s.mem.seg0.len.toNat ∧ decode (s.mem.seg0.get s.ip) = .halt) ∧
    (t.status = .faulted ↔ t.faultRecord ≠ none)

/-- Every running state has one of the five outcomes of R10, a terminal state has none, and each outcome is told by the
step: Cancelled at a boundary where the host cancels (R107), Wait where an Input is fetched that has no answer yet (R95),
Halted and Faulted by the status the step leaves, Next for every other step (logs 1, 2, 5, 7). -/
def Obligations.EveryRunningStateHasAnOutcome : Prop :=
  ∀ s : State, (s.outcome = none ↔ s.status ≠ .running) ∧
    (∀ u, s.outcome = some (.cancelled u) ↔ u = s ∧ s.status = .running ∧ s.host.cancelIn = some 0) ∧
    (s.outcome = some .wait ↔
      s.stepsOn ∧ (∃ w c, s.mem.read 0#32 s.ip = .ok w ∧ decode w = .inp c) ∧ s.host.nextRead = .notYet) ∧
    (∀ t, s.outcome = some (.halted t) ↔ step s = .next t ∧ t.status = .halted) ∧
    (∀ t r, s.outcome = some (.faulted t r) ↔
      step s = .next t ∧ t.status = .faulted ∧ t.faultRecord = some r) ∧
    ∀ t, s.outcome = some (.next t) ↔ step s = .next t ∧ t.status = .running ∧ s.outcome ≠ some .wait

/-! ## Whole-machine rules -/

/-- Every instruction answers a next state, and it faults exactly as the table of R102 says, with the record (kind, ip)
(R98, R99; the order and the ip are the spec's decisions D8 and D9; log 1). -/
def Obligations.FaultsFollowThePriorityTable : Prop :=
  ∀ i s, s.mem.wf → s.status = .running → s.faultRecord = none →
    ∃ t, exec i s = .next t ∧ (∀ k, t.faultRecord = some ⟨k, s.ip⟩ ↔ s.faultsWith i k) ∧
      ((∃ k, s.faultsWith i k) ↔ t.status = .faulted)

/-- A faulting instruction commits nothing but the status and the record (R100; the spec's decision D10, log 1). -/
def Obligations.FaultingInstructionCommitsNothing : Prop :=
  ∀ i s t, s.status = .running → exec i s = .next t → t.status = .faulted → ∃ k, s.faultedOnly t k

/-- At most the register that R29's table names as the write port's address changes (R12, R24). -/
def Obligations.OnlyTheWritePortRegisterChanges : Prop :=
  ∀ i s t r, exec i s = .next t → (controls i).wa ≠ some r → t.x r = s.x r

/-- Only Load-Program redirects control (R85, R88): after every other instruction ip is the incremented one, but for an
Input that waits, which is to be fetched again (R95, log 5). -/
def Obligations.OnlyLoadProgramRedirects : Prop :=
  ∀ i s t, exec i s = .next t →
    t.ip = s.ip ∨ (∃ b c, i = .loadprog b c ∧ t.ip = s.x c) ∨
    (∃ c, i = .inp c ∧ s.host.nextRead = .notYet ∧ t.ip = s.ip - 1)

/-- No instruction but Array-Amend, Allocate, Abandon and Load-Program changes memory (R35), and none but Output and
Input makes a byte call to the host (R92). -/
def Obligations.OnlyTheNamedUnitsActOutside : Prop :=
  ∀ i s t, exec i s = .next t →
    ((controls i).unit.changesMemory = false → s.mem.readsAs t.mem ∧ t.alloc = s.alloc) ∧
    ((controls i).unit.callsHost = false →
      t.host.output = s.host.output ∧ t.host.input = s.host.input ∧ t.host.writes = s.host.writes)

/-- No instruction changes the length of a live segment; segment 0 alone may take a new length, by Load-Program (R16). -/
def Obligations.LengthsAreImmutable : Prop :=
  ∀ i s t id n m, exec i s = .next t → s.mem.length? id = some n → t.mem.length? id = some m →
    n = m ∨ (id = 0#32 ∧ ∃ b c, i = .loadprog b c)

/-- A store to segment 0 is seen by the next fetch of that offset (R123): by a fetch there in whatever later state still
holds the stored word, and with no delay by the fetch immediately after the Array-Amend, when ip stands there. -/
def Obligations.NextFetchSeesTheStore : Prop :=
  ∀ a b c s t, s.stepsOn → s.x a = 0#32 → (s.x b).toNat < s.mem.seg0.len.toNat →
    exec (.amend a b c) s = .next t →
    (∀ u : State, u.stepsOn → u.ip = s.x b → u.mem.read 0#32 (s.x b) = t.mem.read 0#32 (s.x b) →
      step u = exec (decode (s.x c)) u.passBoundary.advance) ∧
    (s.ip = s.x b → step t = exec (decode (s.x c)) t.passBoundary.advance)

/-- After a Load-Program that commits, the very next fetch reads the new segment 0 at the target (R124): the word that
segment x[B] holds at offset x[C]. Where it holds none there, that fetch raises InstructionPointerOutOfBounds with the
record's ip at the target: this clause rests on R83 and R87, on the spec's decisions D7 and D9 (log 13), and on a raise
being a next state (log 1). -/
def Obligations.NextFetchReadsTheNewProgram : Prop :=
  ∀ b c s t, s.stepsOn → s.mem.live (s.x b) = true → (s.x b ≠ 0#32 → s.host.nextOom = false) →
    exec (.loadprog b c) s = .next t →
    (∀ w, s.mem.read (s.x b) (s.x c) = .ok w → step t = exec (decode w) t.passBoundary.advance) ∧
    (s.mem.read (s.x b) (s.x c) = .error .segmentOffsetOutOfBounds →
      ∃ u, step t = .next u ∧ t.faultedOnly u .instructionPointerOutOfBounds)

/-- A host that never refuses and never fails causes no host fault (R103): while some identifier is free, HostIOError and
OutOfHostMemory do not occur. -/
def Obligations.BenignHostCausesNoHostFault : Prop :=
  ∀ s t, s.Inv → s.host.benign → (∃ id, id ≠ 0#32 ∧ s.mem.live id = false) → step s = .next t →
    t.host.benign ∧ ∀ r, t.faultRecord = some r → r.kind.fromHost = false

/-- The host's answers cannot be seen by an instruction that asks for none: two states with the same core answer the same
core, whatever their hosts answer to reads and writes, and whatever they draw unless the instruction is Allocate or
Load-Program (R92, R42, R40; logs 4 to 7). -/
def Obligations.HostIsInvisibleWithoutACall : Prop :=
  ∀ i s s' t t', s.sameCore s' → (controls i).unit.callsHost = false →
    ((controls i).unit = .allocatorAlloc ∨ (controls i).unit = .allocatorInstall → s.host.nextOom = s'.host.nextOom) →
    exec i s = .next t → exec i s' = .next t' → t.sameCore t'

/-- The exit code is 0 on normal halt and non-zero on every fault, InvalidImageSize among them, which ends a run before
it begins (R4, R5, R114; 92 D18, log 15). -/
def Obligations.ExitCodeZeroIsNormalHalt : Prop :=
  (∀ e : Ended, e.exitCode = some 0 ↔ e = .halted) ∧
  (∀ (e : Ended) (k : FaultKind), e.fault? = some k → ∃ n, e.exitCode = some n ∧ n ≠ 0) ∧
  (∀ r : FaultRecord, (Ended.faulted r).fault? = some r.kind) ∧
  Ended.invalidImage.fault? = some .invalidImageSize ∧
  ∀ (n : Nat) (e : Environment) (image : List Byte),
    (runImage n e image).2 = some .invalidImage ↔ image.length = 0 ∨ image.length % 4 ≠ 0

/-! ## Invariants -/

/-- Stores of canonical form that read alike are equal: memory is determined by what can be read of it (log 8). -/
def Obligations.CanonicalStoresThatReadAlikeAreEqual : Prop :=
  ∀ m m' : Memory, m.wf → m'.wf → m.readsAs m' → m = m'

/-- The invariant holds after reset (before an image is supplied: the model's choice, log 9) and after VM init from any
image of at most 2^32 - 1 words in any environment; and where the reference policy is in force, so does its reading of the
state (R31, R116; the spec's decisions D17 and D4, log 3). -/
def Obligations.InitialStatesMeetTheInvariant : Prop :=
  State.reset.Inv ∧ State.reset.ReferencePolicy ∧
  ∀ (e : Environment) (ws : List Word), ws.length < 2 ^ 32 →
    (State.init e ws).Inv ∧ (e.picks = [] → e.policy = .reference → (State.init e ws).ReferencePolicy)

/-- Every step keeps the invariant: memory in canonical form with lengths and offsets of 32 bits, the allocator's hidden
state in agreement with the store, the fault record in agreement with the status (R15, R19, R33, R40, R52, R99). -/
def Obligations.StepKeepsTheInvariant : Prop := ∀ s t, s.Inv → step s = .next t → t.Inv

/-- Every step keeps the reference policy's reading of its state (R18, R52; the spec's decision D4, log 3): the counter
is the lowest identifier never yet issued, and every identifier below it is live or on the free list. -/
def Obligations.StepKeepsTheReferencePolicy : Prop :=
  ∀ s t, s.Inv → s.ReferencePolicy → step s = .next t → t.ReferencePolicy

/-- Under the reference policy Allocate runs out exactly when the counter has passed 2^32 - 1 and the free list is empty
(R52; the spec's decision D4, log 3), which is exactly when every non-zero identifier is live (R40). -/
def Obligations.ReferencePolicyExhaustion : Prop :=
  ∀ s : State, s.Inv → s.ReferencePolicy →
    ((s.alloc.choose s.mem = none ↔ s.alloc.next = 2 ^ 32 ∧ s.alloc.free = []) ∧
      (s.alloc.choose s.mem = none ↔ ∀ id, id ≠ 0#32 → s.mem.live id = true))
end

