-- ==== Sys2Proof/Laws/State.lean ====
section
/-! SUPPORT. One lemma per field per update of State, so that no proof unfolds a record update; and the register file's
read-after-write laws (spec/10_state.md R11, R24). -/

namespace Sys2Proof.Machine

/-! ## The register file -/

@[simp] theorem Regs.get_set_same (g : Regs) (r : Reg) (v : Word) : (g.set r v).get r = v := by cases r <;> rfl

theorem Regs.get_set_other (g : Regs) {r q : Reg} (v : Word) (h : q ≠ r) : (g.set r v).get q = g.get q := by
  cases r <;> cases q <;> first | rfl | exact absurd rfl h

theorem Regs.get_set (g : Regs) (r q : Reg) (v : Word) : (g.set r v).get q = if q = r then v else g.get q := by
  by_cases h : q = r
  · subst h; simp
  · simp [h, g.get_set_other v h]

@[simp] theorem State.x_setX_same (s : State) (r : Reg) (v : Word) : (s.setX r v).x r = v := s.regs.get_set_same r v

theorem State.x_setX_other (s : State) {r q : Reg} (v : Word) (h : q ≠ r) : (s.setX r v).x q = s.x q :=
  s.regs.get_set_other v h

theorem State.x_setX (s : State) (r q : Reg) (v : Word) : (s.setX r v).x q = if q = r then v else s.x q :=
  s.regs.get_set r q v

@[simp] theorem State.writePort_enabled (s : State) (r : Reg) (v : Word) : s.writePort r v true = s.setX r v := rfl

@[simp] theorem State.writePort_disabled (s : State) (r : Reg) (v : Word) : s.writePort r v false = s := rfl

/-! ## setX -/

@[simp] theorem State.setX_regs (s : State) (r : Reg) (v : Word) : (s.setX r v).regs = s.regs.set r v := rfl

@[simp] theorem State.setX_ip (s : State) (r : Reg) (v : Word) : (s.setX r v).ip = s.ip := rfl

@[simp] theorem State.setX_mem (s : State) (r : Reg) (v : Word) : (s.setX r v).mem = s.mem := rfl

@[simp] theorem State.setX_status (s : State) (r : Reg) (v : Word) : (s.setX r v).status = s.status := rfl

@[simp] theorem State.setX_faultRecord (s : State) (r : Reg) (v : Word) :
    (s.setX r v).faultRecord = s.faultRecord := rfl

@[simp] theorem State.setX_alloc (s : State) (r : Reg) (v : Word) : (s.setX r v).alloc = s.alloc := rfl

@[simp] theorem State.setX_host (s : State) (r : Reg) (v : Word) : (s.setX r v).host = s.host := rfl

/-! ## setIp -/

@[simp] theorem State.setIp_regs (s : State) (v : Word) : (s.setIp v).regs = s.regs := rfl

@[simp] theorem State.setIp_ip (s : State) (v : Word) : (s.setIp v).ip = v := rfl

@[simp] theorem State.setIp_mem (s : State) (v : Word) : (s.setIp v).mem = s.mem := rfl

@[simp] theorem State.setIp_status (s : State) (v : Word) : (s.setIp v).status = s.status := rfl

@[simp] theorem State.setIp_faultRecord (s : State) (v : Word) : (s.setIp v).faultRecord = s.faultRecord := rfl

@[simp] theorem State.setIp_alloc (s : State) (v : Word) : (s.setIp v).alloc = s.alloc := rfl

@[simp] theorem State.setIp_host (s : State) (v : Word) : (s.setIp v).host = s.host := rfl

@[simp] theorem State.x_setIp (s : State) (v : Word) (q : Reg) : (s.setIp v).x q = s.x q := rfl

/-! ## withMem -/

@[simp] theorem State.withMem_regs (s : State) (m : Memory) : (s.withMem m).regs = s.regs := rfl

@[simp] theorem State.withMem_ip (s : State) (m : Memory) : (s.withMem m).ip = s.ip := rfl

@[simp] theorem State.withMem_mem (s : State) (m : Memory) : (s.withMem m).mem = m := rfl

@[simp] theorem State.withMem_status (s : State) (m : Memory) : (s.withMem m).status = s.status := rfl

@[simp] theorem State.withMem_faultRecord (s : State) (m : Memory) : (s.withMem m).faultRecord = s.faultRecord := rfl

@[simp] theorem State.withMem_alloc (s : State) (m : Memory) : (s.withMem m).alloc = s.alloc := rfl

@[simp] theorem State.withMem_host (s : State) (m : Memory) : (s.withMem m).host = s.host := rfl

@[simp] theorem State.x_withMem (s : State) (m : Memory) (q : Reg) : (s.withMem m).x q = s.x q := rfl

/-! ## withAlloc -/

@[simp] theorem State.withAlloc_regs (s : State) (a : AllocState) : (s.withAlloc a).regs = s.regs := rfl

@[simp] theorem State.withAlloc_ip (s : State) (a : AllocState) : (s.withAlloc a).ip = s.ip := rfl

@[simp] theorem State.withAlloc_mem (s : State) (a : AllocState) : (s.withAlloc a).mem = s.mem := rfl

@[simp] theorem State.withAlloc_status (s : State) (a : AllocState) : (s.withAlloc a).status = s.status := rfl

@[simp] theorem State.withAlloc_faultRecord (s : State) (a : AllocState) :
    (s.withAlloc a).faultRecord = s.faultRecord := rfl

@[simp] theorem State.withAlloc_alloc (s : State) (a : AllocState) : (s.withAlloc a).alloc = a := rfl

@[simp] theorem State.withAlloc_host (s : State) (a : AllocState) : (s.withAlloc a).host = s.host := rfl

@[simp] theorem State.x_withAlloc (s : State) (a : AllocState) (q : Reg) : (s.withAlloc a).x q = s.x q := rfl

/-! ## raise -/

@[simp] theorem State.raise_regs (s : State) (k : FaultKind) : (s.raise k).regs = s.regs := rfl

@[simp] theorem State.raise_ip (s : State) (k : FaultKind) : (s.raise k).ip = s.ip := rfl

@[simp] theorem State.raise_mem (s : State) (k : FaultKind) : (s.raise k).mem = s.mem := rfl

@[simp] theorem State.raise_status (s : State) (k : FaultKind) : (s.raise k).status = .faulted := rfl

@[simp] theorem State.raise_faultRecord (s : State) (k : FaultKind) : (s.raise k).faultRecord = some ⟨k, s.ip⟩ := rfl

@[simp] theorem State.raise_alloc (s : State) (k : FaultKind) : (s.raise k).alloc = s.alloc := rfl

@[simp] theorem State.raise_host (s : State) (k : FaultKind) : (s.raise k).host = s.host := rfl

@[simp] theorem State.x_raise (s : State) (k : FaultKind) (q : Reg) : (s.raise k).x q = s.x q := rfl

/-! ## halt -/

@[simp] theorem State.halt_regs (s : State) : (s.halt).regs = s.regs := rfl

@[simp] theorem State.halt_ip (s : State) : (s.halt).ip = s.ip := rfl

@[simp] theorem State.halt_mem (s : State) : (s.halt).mem = s.mem := rfl

@[simp] theorem State.halt_status (s : State) : (s.halt).status = .halted := rfl

@[simp] theorem State.halt_faultRecord (s : State) : (s.halt).faultRecord = s.faultRecord := rfl

@[simp] theorem State.halt_alloc (s : State) : (s.halt).alloc = s.alloc := rfl

@[simp] theorem State.halt_host (s : State) : (s.halt).host = s.host := rfl

@[simp] theorem State.x_halt (s : State) (q : Reg) : (s.halt).x q = s.x q := rfl

/-! ## advance -/

@[simp] theorem State.advance_regs (s : State) : (s.advance).regs = s.regs := rfl

@[simp] theorem State.advance_ip (s : State) : (s.advance).ip = s.ip + 1 := rfl

@[simp] theorem State.advance_mem (s : State) : (s.advance).mem = s.mem := rfl

@[simp] theorem State.advance_status (s : State) : (s.advance).status = s.status := rfl

@[simp] theorem State.advance_faultRecord (s : State) : (s.advance).faultRecord = s.faultRecord := rfl

@[simp] theorem State.advance_alloc (s : State) : (s.advance).alloc = s.alloc := rfl

@[simp] theorem State.advance_host (s : State) : (s.advance).host = s.host := rfl

@[simp] theorem State.x_advance (s : State) (q : Reg) : (s.advance).x q = s.x q := rfl

/-! ## unfetch -/

@[simp] theorem State.unfetch_regs (s : State) : (s.unfetch).regs = s.regs := rfl

@[simp] theorem State.unfetch_ip (s : State) : (s.unfetch).ip = s.ip - 1 := rfl

@[simp] theorem State.unfetch_mem (s : State) : (s.unfetch).mem = s.mem := rfl

@[simp] theorem State.unfetch_status (s : State) : (s.unfetch).status = s.status := rfl

@[simp] theorem State.unfetch_faultRecord (s : State) : (s.unfetch).faultRecord = s.faultRecord := rfl

@[simp] theorem State.unfetch_alloc (s : State) : (s.unfetch).alloc = s.alloc := rfl

@[simp] theorem State.unfetch_host (s : State) : (s.unfetch).host = s.host := rfl

@[simp] theorem State.x_unfetch (s : State) (q : Reg) : (s.unfetch).x q = s.x q := rfl

/-! ## afterOomDraw -/

@[simp] theorem State.afterOomDraw_regs (s : State) : (s.afterOomDraw).regs = s.regs := rfl

@[simp] theorem State.afterOomDraw_ip (s : State) : (s.afterOomDraw).ip = s.ip := rfl

@[simp] theorem State.afterOomDraw_mem (s : State) : (s.afterOomDraw).mem = s.mem := rfl

@[simp] theorem State.afterOomDraw_status (s : State) : (s.afterOomDraw).status = s.status := rfl

@[simp] theorem State.afterOomDraw_faultRecord (s : State) : (s.afterOomDraw).faultRecord = s.faultRecord := rfl

@[simp] theorem State.afterOomDraw_alloc (s : State) : (s.afterOomDraw).alloc = s.alloc := rfl

@[simp] theorem State.afterOomDraw_host (s : State) :
    (s.afterOomDraw).host = { s.host with oom := s.host.oom.tail } := rfl

@[simp] theorem State.x_afterOomDraw (s : State) (q : Reg) : (s.afterOomDraw).x q = s.x q := rfl

/-! ## afterRead -/

@[simp] theorem State.afterRead_regs (s : State) : (s.afterRead).regs = s.regs := rfl

@[simp] theorem State.afterRead_ip (s : State) : (s.afterRead).ip = s.ip := rfl

@[simp] theorem State.afterRead_mem (s : State) : (s.afterRead).mem = s.mem := rfl

@[simp] theorem State.afterRead_status (s : State) : (s.afterRead).status = s.status := rfl

@[simp] theorem State.afterRead_faultRecord (s : State) : (s.afterRead).faultRecord = s.faultRecord := rfl

@[simp] theorem State.afterRead_alloc (s : State) : (s.afterRead).alloc = s.alloc := rfl

@[simp] theorem State.afterRead_host (s : State) :
    (s.afterRead).host = { s.host with input := s.host.input.tail } := rfl

@[simp] theorem State.x_afterRead (s : State) (q : Reg) : (s.afterRead).x q = s.x q := rfl

/-! ## afterWrite -/

@[simp] theorem State.afterWrite_regs (s : State) (b : Byte) : (s.afterWrite b).regs = s.regs := rfl

@[simp] theorem State.afterWrite_ip (s : State) (b : Byte) : (s.afterWrite b).ip = s.ip := rfl

@[simp] theorem State.afterWrite_mem (s : State) (b : Byte) : (s.afterWrite b).mem = s.mem := rfl

@[simp] theorem State.afterWrite_status (s : State) (b : Byte) : (s.afterWrite b).status = s.status := rfl

@[simp] theorem State.afterWrite_faultRecord (s : State) (b : Byte) :
    (s.afterWrite b).faultRecord = s.faultRecord := rfl

@[simp] theorem State.afterWrite_alloc (s : State) (b : Byte) : (s.afterWrite b).alloc = s.alloc := rfl

@[simp] theorem State.afterWrite_host (s : State) (b : Byte) : (s.afterWrite b).host = { s.host with
      writes := s.host.writes.tail
      output := if s.host.nextWrite.delivered then s.host.output ++ [b] else s.host.output } := rfl

@[simp] theorem State.x_afterWrite (s : State) (b : Byte) (q : Reg) : (s.afterWrite b).x q = s.x q := rfl

/-! ## passBoundary -/

@[simp] theorem State.passBoundary_regs (s : State) : (s.passBoundary).regs = s.regs := rfl

@[simp] theorem State.passBoundary_ip (s : State) : (s.passBoundary).ip = s.ip := rfl

@[simp] theorem State.passBoundary_mem (s : State) : (s.passBoundary).mem = s.mem := rfl

@[simp] theorem State.passBoundary_status (s : State) : (s.passBoundary).status = s.status := rfl

@[simp] theorem State.passBoundary_faultRecord (s : State) : (s.passBoundary).faultRecord = s.faultRecord := rfl

@[simp] theorem State.passBoundary_alloc (s : State) : (s.passBoundary).alloc = s.alloc := rfl

@[simp] theorem State.passBoundary_host (s : State) :
    (s.passBoundary).host = { s.host with cancelIn := s.host.cancelIn.map Nat.pred } := rfl

@[simp] theorem State.x_passBoundary (s : State) (q : Reg) : (s.passBoundary).x q = s.x q := rfl

/-! ## makeReady -/

@[simp] theorem State.makeReady_regs (s : State) : (s.makeReady).regs = s.regs := rfl

@[simp] theorem State.makeReady_ip (s : State) : (s.makeReady).ip = s.ip := rfl

@[simp] theorem State.makeReady_mem (s : State) : (s.makeReady).mem = s.mem := rfl

@[simp] theorem State.makeReady_status (s : State) : (s.makeReady).status = .running := rfl

@[simp] theorem State.makeReady_faultRecord (s : State) : (s.makeReady).faultRecord = none := rfl

@[simp] theorem State.makeReady_alloc (s : State) : (s.makeReady).alloc = s.alloc := rfl

@[simp] theorem State.makeReady_host (s : State) :
    (s.makeReady).host = { s.host with cancelIn := if s.host.cancelIn = some 0 then none else s.host.cancelIn } := rfl

@[simp] theorem State.x_makeReady (s : State) (q : Reg) : (s.makeReady).x q = s.x q := rfl

/-! ## Answers -/

@[simp] theorem HostState.nextOom_cancelIn (h : HostState) (n : Option Nat) :
    { h with cancelIn := n }.nextOom = h.nextOom := rfl

@[simp] theorem HostState.nextRead_cancelIn (h : HostState) (n : Option Nat) :
    { h with cancelIn := n }.nextRead = h.nextRead := rfl

@[simp] theorem HostState.nextWrite_cancelIn (h : HostState) (n : Option Nat) :
    { h with cancelIn := n }.nextWrite = h.nextWrite := rfl

@[simp] theorem Policy.choice_reference : Policy.reference.choice = [] := rfl

@[simp] theorem Policy.update_reference (k : Word) : Policy.reference.update k = .reference := rfl

@[simp] theorem Policy.release_reference (id : Word) : Policy.reference.release id = .reference := rfl

@[simp] theorem Answers.head_cons {α : Type} (f : Nat → Nat → α) (a : α) (l : List α) (r : Rest α) :
    (⟨a :: l, r⟩ : Answers α).head f = a := rfl

@[simp] theorem Answers.head_always {α : Type} (f : Nat → Nat → α) (a : α) :
    (⟨[], .always a⟩ : Answers α).head f = a := rfl

@[simp] theorem Answers.head_oracle {α : Type} (f : Nat → Nat → α) (h n : Nat) :
    (⟨[], .oracle h n⟩ : Answers α).head f = f h n := rfl

@[simp] theorem Answers.tail_cons {α : Type} (a : α) (l : List α) (r : Rest α) :
    (⟨a :: l, r⟩ : Answers α).tail = ⟨l, r⟩ := rfl

@[simp] theorem Answers.tail_always {α : Type} (a : α) : (⟨[], .always a⟩ : Answers α).tail = ⟨[], .always a⟩ := rfl

@[simp] theorem Answers.tail_oracle {α : Type} (h n : Nat) :
    (⟨[], .oracle h n⟩ : Answers α).tail = ⟨[], .oracle h (n + 1)⟩ := rfl

end Sys2Proof.Machine
end

