-- ==== Sys2Proof/Laws/Memory.lean ====
section
/-! SUPPORT. The laws of the memory store: read after write, frames, and that every operation keeps the canonical form
(spec/20_memory.md). -/

namespace Sys2Proof.Machine

/-! ## Keyed lists -/

section Assoc

variable {α : Type}

@[simp] theorem assocGet_put_same (k : Nat) (v : α) (l : List (Nat × α)) : assocGet k (assocPut k v l) = some v := by
  induction l with
  | nil => simp [assocPut, assocGet]
  | cons p t ih =>
    simp only [assocPut]
    split
    · simp [assocGet]
    · split
      · simp [assocGet]
      · simp [assocGet, *]

theorem assocGet_put_other {j k : Nat} (v : α) (l : List (Nat × α)) (h : j ≠ k) :
    assocGet j (assocPut k v l) = assocGet j l := by
  induction l with
  | nil => simp [assocPut, assocGet, h]
  | cons p t ih =>
    simp only [assocPut]
    split
    · simp [assocGet, h]
    · split
      · next hk => subst hk; simp [assocGet, h]
      · simp [assocGet, ih]

@[simp] theorem assocGet_erase_same (k : Nat) (l : List (Nat × α)) : assocGet k (assocErase k l) = none := by
  induction l with
  | nil => rfl
  | cons p t ih =>
    simp only [assocErase]
    split
    · exact ih
    · simp [assocGet, *]

theorem assocGet_erase_other {j k : Nat} (l : List (Nat × α)) (h : j ≠ k) :
    assocGet j (assocErase k l) = assocGet j l := by
  induction l with
  | nil => rfl
  | cons p t ih =>
    simp only [assocErase]
    split
    · next hk => subst hk; simp [assocGet, h, ih]
    · simp [assocGet, ih]

theorem mem_assocPut {k : Nat} {v : α} {l : List (Nat × α)} {p : Nat × α} (h : p ∈ assocPut k v l) :
    p = (k, v) ∨ p ∈ l := by
  induction l with
  | nil => simpa [assocPut] using h
  | cons q t ih =>
    simp only [assocPut] at h
    split at h
    · simpa using h
    · split at h
      · rcases List.mem_cons.1 h with h | h
        · exact .inl h
        · exact .inr (List.mem_cons_of_mem _ h)
      · rcases List.mem_cons.1 h with h | h
        · exact .inr (h ▸ List.mem_cons_self)
        · exact (ih h).imp_right (List.mem_cons_of_mem _)

theorem mem_assocErase {k : Nat} {l : List (Nat × α)} {p : Nat × α} (h : p ∈ assocErase k l) : p ∈ l ∧ p.1 ≠ k := by
  induction l with
  | nil => simp [assocErase] at h
  | cons q t ih =>
    simp only [assocErase] at h
    split at h
    · exact (ih h).imp_left (List.mem_cons_of_mem _)
    · next hk =>
      rcases List.mem_cons.1 h with rfl | h
      · exact ⟨List.mem_cons_self, fun e => hk e.symm⟩
      · exact (ih h).imp_left (List.mem_cons_of_mem _)

theorem keysRise_put {k : Nat} {v : α} {l : List (Nat × α)} (h : KeysRise l) : KeysRise (assocPut k v l) := by
  induction l with
  | nil => exact List.pairwise_singleton _ _
  | cons q t ih =>
    obtain ⟨hq, ht⟩ := List.pairwise_cons.1 h
    simp only [assocPut]
    split
    · next hk =>
      refine List.pairwise_cons.2 ⟨fun p hp => ?_, h⟩
      rcases List.mem_cons.1 hp with rfl | hp
      · exact hk
      · exact Nat.lt_trans hk (hq p hp)
    · split
      · next hk => exact List.pairwise_cons.2 ⟨fun p hp => hk ▸ hq p hp, ht⟩
      · next hlt hne =>
        refine List.pairwise_cons.2 ⟨fun p hp => ?_, ih ht⟩
        rcases mem_assocPut hp with rfl | hp
        · exact Nat.lt_of_le_of_ne (Nat.le_of_not_lt hlt) (fun e => hne e.symm)
        · exact hq p hp

theorem assocErase_sublist (k : Nat) (l : List (Nat × α)) : (assocErase k l).Sublist l := by
  induction l with
  | nil => exact .slnil
  | cons q t ih =>
    simp only [assocErase]
    split
    · exact ih.cons _
    · exact ih.cons_cons _

theorem keysRise_erase {k : Nat} {l : List (Nat × α)} (h : KeysRise l) : KeysRise (assocErase k l) :=
  h.sublist (assocErase_sublist k l)

theorem mem_of_assocGet {k : Nat} {v : α} {l : List (Nat × α)} (h : assocGet k l = some v) : (k, v) ∈ l := by
  induction l with
  | nil => cases h
  | cons q t ih =>
    simp only [assocGet] at h
    split at h
    · next hk => cases h; subst hk; exact List.mem_cons_self
    · exact List.mem_cons_of_mem _ (ih h)

/-- A key below every listed key is not listed. -/
theorem assocGet_of_lt {k : Nat} {l : List (Nat × α)} (h : ∀ p ∈ l, k < p.1) : assocGet k l = none := by
  induction l with
  | nil => rfl
  | cons q t ih =>
    have hq := h q List.mem_cons_self
    simp [assocGet, Nat.ne_of_lt hq, ih fun p hp => h p (List.mem_cons_of_mem _ hp)]

theorem le_lowestAbsent (n : Nat) (l : List (Nat × α)) : n ≤ lowestAbsent n l := by
  induction l generalizing n with
  | nil => exact Nat.le_refl n
  | cons q t ih =>
    simp only [lowestAbsent]
    split
    · exact Nat.le_trans (Nat.le_succ n) (ih (n + 1))
    · exact Nat.le_refl n

/-- Among rising keys that start at n or later, the lowest absent number is no key. -/
theorem assocGet_lowestAbsent {n : Nat} {l : List (Nat × α)} (h : KeysRise l) (hn : ∀ p ∈ l, n ≤ p.1) :
    assocGet (lowestAbsent n l) l = none := by
  induction l generalizing n with
  | nil => rfl
  | cons q t ih =>
    obtain ⟨hq, ht⟩ := List.pairwise_cons.1 h
    have hnq : n ≤ q.1 := hn q List.mem_cons_self
    simp only [lowestAbsent]
    split
    · next hk =>
      have hge := le_lowestAbsent (n + 1) t
      have hne : lowestAbsent (n + 1) t ≠ q.1 := by omega
      simpa [assocGet, hne] using ih ht fun p hp => by have := hq p hp; omega
    · next hk =>
      have hlt : n < q.1 := by omega
      exact assocGet_of_lt fun p hp => by
        rcases List.mem_cons.1 hp with rfl | hp
        · exact hlt
        · exact Nat.lt_trans hlt (hq p hp)

/-- Every number from n up to the lowest absent one is a key. -/
theorem assocGet_of_lt_lowestAbsent {n k : Nat} {l : List (Nat × α)} (hn : n ≤ k) (hk : k < lowestAbsent n l) :
    (assocGet k l).isSome = true := by
  induction l generalizing n with
  | nil => simp only [lowestAbsent] at hk; omega
  | cons q t ih =>
    simp only [lowestAbsent] at hk
    simp only [assocGet]
    split at hk
    · next hq =>
      by_cases hkq : k = q.1
      · simp [hkq]
      · simp [hkq, ih (n := n + 1) (by omega) hk]
    · omega

end Assoc

/-! ## Segments -/

theorem Segment.get_set_same (g : Segment) (off v : Word) : (g.set off v).get off = v := by
  by_cases h : v = unlistedWord <;> simp [Segment.get, Segment.set, h]

theorem Segment.get_set_other (g : Segment) {off off' : Word} (v : Word) (h : off' ≠ off) :
    (g.set off v).get off' = g.get off' := by
  have hn : off'.toNat ≠ off.toNat := fun e => h (BitVec.eq_of_toNat_eq e)
  by_cases hv : v = unlistedWord
  · simp [Segment.get, Segment.set, hv, assocGet_erase_other _ hn]
  · simp [Segment.get, Segment.set, hv, assocGet_put_other _ _ hn]

@[simp] theorem Segment.set_len (g : Segment) (off v : Word) : (g.set off v).len = g.len := rfl

@[simp] theorem Segment.zeros_len (n : Word) : (Segment.zeros n).len = n := rfl

@[simp] theorem Segment.zeros_get (n off : Word) : (Segment.zeros n).get off = 0#32 := rfl

theorem Segment.zeros_wf (n : Word) : (Segment.zeros n).wf := ⟨List.Pairwise.nil, fun _ h => nomatch h⟩

/-- A write inside the segment keeps its canonical form. -/
theorem Segment.set_wf {g : Segment} {off : Word} (v : Word) (h : g.wf) (hb : g.inBounds off) : (g.set off v).wf := by
  by_cases hv : v = unlistedWord
  · refine ⟨by simpa [Segment.set, hv] using keysRise_erase h.1, fun p hp => ?_⟩
    exact h.2 p (mem_assocErase (by simpa [Segment.set, hv] using hp)).1
  · refine ⟨by simpa [Segment.set, hv] using keysRise_put h.1, fun p hp => ?_⟩
    rcases mem_assocPut (by simpa [Segment.set, hv] using hp) with rfl | hp
    · exact ⟨BitVec.lt_def.1 hb, hv⟩
    · exact h.2 p hp

theorem mem_cellsFrom {n : Nat} {ws : List Word} {p : Nat × Word} (h : p ∈ cellsFrom n ws) :
    n ≤ p.1 ∧ p.1 < n + ws.length ∧ p.2 ≠ unlistedWord := by
  induction ws generalizing n with
  | nil => simp [cellsFrom] at h
  | cons w t ih =>
    simp only [cellsFrom] at h
    simp only [List.length_cons]
    split at h
    · have := ih h; exact ⟨by omega, by omega, this.2.2⟩
    · next hw =>
      rcases List.mem_cons.1 h with rfl | h
      · exact ⟨Nat.le_refl _, by simp, hw⟩
      · have := ih h; exact ⟨by omega, by omega, this.2.2⟩

theorem keysRise_cellsFrom (n : Nat) (ws : List Word) : KeysRise (cellsFrom n ws) := by
  induction ws generalizing n with
  | nil => exact List.Pairwise.nil
  | cons w t ih =>
    simp only [cellsFrom]
    split
    · exact ih (n + 1)
    · exact List.pairwise_cons.2 ⟨fun p hp => (mem_cellsFrom hp).1, ih (n + 1)⟩

/-- A sequence of at most 2^32 - 1 words makes a segment in canonical form. -/
theorem Segment.ofWords_wf {ws : List Word} (h : ws.length < 2 ^ 32) : (Segment.ofWords ws).wf :=
  ⟨keysRise_cellsFrom 0 ws, fun p hp => by
    have := mem_cellsFrom hp
    have hl : (Segment.ofWords ws).len.toNat = ws.length := by
      simp only [Segment.ofWords, BitVec.toNat_ofNat]; exact Nat.mod_eq_of_lt h
    exact ⟨by omega, this.2.2⟩⟩

/-! ## The store -/

theorem toNat_pos_of_ne_zero {id : Word} (h : id ≠ 0#32) : 0 < id.toNat :=
  Nat.pos_of_ne_zero fun e => h (BitVec.eq_of_toNat_eq e)

theorem toNat_ne_of_ne {id id' : Word} (h : id ≠ id') : id.toNat ≠ id'.toNat := fun e => h (BitVec.eq_of_toNat_eq e)

@[simp] theorem Memory.find_zero (m : Memory) : m.find 0#32 = some m.seg0 := rfl

/-- Identifier 0 is always live (R34, R36). -/
@[simp] theorem Memory.live_zero (m : Memory) : m.live 0#32 = true := rfl

@[simp] theorem Memory.find_put_same (m : Memory) (id : Word) (g : Segment) : (m.put id g).find id = some g := by
  by_cases h : id = 0#32 <;> simp [Memory.find, Memory.put, h]

theorem Memory.find_put_other (m : Memory) {id id' : Word} (g : Segment) (h : id' ≠ id) :
    (m.put id g).find id' = m.find id' := by
  by_cases h0 : id = 0#32
  · subst h0; simp [Memory.find, Memory.put, h]
  · simp [Memory.find, Memory.put, h0, assocGet_put_other _ _ (toNat_ne_of_ne h)]

theorem Memory.find_put (m : Memory) (id id' : Word) (g : Segment) :
    (m.put id g).find id' = if id' = id then some g else m.find id' := by
  by_cases h : id' = id
  · subst h; simp
  · simp [h, m.find_put_other g h]

@[simp] theorem Memory.install_seg0 (m : Memory) (g : Segment) : (m.install g).seg0 = g := rfl

@[simp] theorem Memory.install_segs (m : Memory) (g : Segment) : (m.install g).segs = m.segs := rfl

/-- Install changes segment 0 and no other segment (R43). -/
theorem Memory.find_install (m : Memory) (id : Word) (g : Segment) :
    (m.install g).find id = if id = 0#32 then some g else m.find id := by
  by_cases h : id = 0#32 <;> simp [Memory.find, Memory.install, h]

theorem Memory.find_wf {m : Memory} {id : Word} {g : Segment} (h : m.wf) (hf : m.find id = some g) : g.wf := by
  by_cases h0 : id = 0#32
  · subst h0; cases hf; exact h.1
  · exact (h.2.2 _ (mem_of_assocGet (by simpa [Memory.find, h0] using hf))).2.2

/-- Putting a segment in canonical form keeps the store's canonical form. -/
theorem Memory.put_wf {m : Memory} {g : Segment} (id : Word) (h : m.wf) (hg : g.wf) : (m.put id g).wf := by
  by_cases h0 : id = 0#32
  · subst h0; exact ⟨hg, h.2⟩
  · rw [Memory.put, if_neg h0]
    refine ⟨h.1, keysRise_put h.2.1, fun p hp => ?_⟩
    rcases mem_assocPut hp with rfl | hp
    · exact ⟨toNat_pos_of_ne_zero h0, id.isLt, hg⟩
    · exact h.2.2 p hp

/-- Install keeps the canonical form. -/
theorem Memory.install_wf {m : Memory} {g : Segment} (h : m.wf) (hg : g.wf) : (m.install g).wf := ⟨hg, h.2⟩

/-- Creating a segment keeps the canonical form. -/
theorem Memory.create_wf {m : Memory} (k n : Word) (h : m.wf) : (m.create k n).wf := put_wf k h (Segment.zeros_wf n)

/-- What a write answers, and all it does: a live identifier, an offset in bounds, and the one word put (R39). -/
theorem Memory.write_ok {m m' : Memory} {id off v : Word} (h : m.write id off v = .ok m') :
    ∃ g, m.find id = some g ∧ g.inBounds off ∧ m' = m.put id (g.set off v) := by
  unfold Memory.write at h
  split at h
  · cases h
  · next g hg =>
    split at h
    · next hb => exact ⟨g, hg, hb, by cases h; rfl⟩
    · cases h

/-- A write keeps the canonical form. -/
theorem Memory.write_wf {m m' : Memory} {id off v : Word} (hw : m.wf) (h : m.write id off v = .ok m') : m'.wf := by
  obtain ⟨g, hg, hb, rfl⟩ := write_ok h
  exact put_wf id hw (Segment.set_wf v (find_wf hw hg) hb)

/-- The word written reads back. -/
theorem Memory.read_write_same {m m' : Memory} {id off v : Word} (h : m.write id off v = .ok m') :
    m'.read id off = .ok v := by
  obtain ⟨g, -, hb, rfl⟩ := write_ok h
  simp only [Memory.read, find_put_same]
  rw [if_pos (show (g.set off v).inBounds off from hb), Segment.get_set_same]

/-- Every other word reads as before. -/
theorem Memory.read_write_other {m m' : Memory} {id off v id' off' : Word} (h : m.write id off v = .ok m')
    (hne : (id', off') ≠ (id, off)) : m'.read id' off' = m.read id' off' := by
  obtain ⟨g, hg, hb, rfl⟩ := write_ok h
  by_cases hid : id' = id
  · subst hid
    have hoff : off' ≠ off := fun e => hne (by rw [e])
    simp only [Memory.read, find_put_same, hg, Segment.get_set_other g v hoff]
    rfl
  · simp only [Memory.read, find_put_other m _ hid]

/-- No write changes a length. -/
theorem Memory.length_write {m m' : Memory} {id off v : Word} (id' : Word) (h : m.write id off v = .ok m') :
    m'.length? id' = m.length? id' := by
  obtain ⟨g, hg, hb, rfl⟩ := write_ok h
  by_cases hid : id' = id
  · subst hid; simp [Memory.length?, hg]
  · simp [Memory.length?, find_put_other m _ hid]

/-- What is live is live after a write, and nothing else. -/
theorem Memory.live_write {m m' : Memory} {id off v : Word} (id' : Word) (h : m.write id off v = .ok m') :
    m'.live id' = m.live id' := by
  obtain ⟨g, hg, hb, rfl⟩ := write_ok h
  by_cases hid : id' = id
  · subst hid; simp [Memory.live, hg]
  · simp [Memory.live, find_put_other m _ hid]

/-- When a write succeeds (R39). -/
theorem Memory.write_eq_ok {m : Memory} {id off : Word} {g : Segment} (v : Word) (hg : m.find id = some g)
    (hb : g.inBounds off) : m.write id off v = .ok (m.put id (g.set off v)) := by
  simp [Memory.write, hg, hb]

/-- When a read succeeds (R38). -/
theorem Memory.read_eq_ok {m : Memory} {id off : Word} {g : Segment} (hg : m.find id = some g)
    (hb : g.inBounds off) : m.read id off = .ok (g.get off) := by
  simp [Memory.read, hg, hb]

theorem Memory.live_eq (m : Memory) (id : Word) : m.live id = (m.find id).isSome := rfl

/-- What Free answers, and all it does (R41). -/
theorem Memory.free_ok {m m' : Memory} {id : Word} (h : m.free id = .ok m') :
    id ≠ 0#32 ∧ m.live id = true ∧ m' = { m with segs := assocErase id.toNat m.segs } := by
  unfold Memory.free at h
  split at h
  · cases h
  · next h0 =>
    split at h
    · next hl => exact ⟨h0, hl, by cases h; rfl⟩
    · cases h

theorem Memory.find_free_same {m m' : Memory} {id : Word} (h : m.free id = .ok m') : m'.find id = none := by
  obtain ⟨h0, -, rfl⟩ := free_ok h
  simp [Memory.find, h0]

theorem Memory.find_free_other {m m' : Memory} {id id' : Word} (h : m.free id = .ok m') (hne : id' ≠ id) :
    m'.find id' = m.find id' := by
  obtain ⟨-, -, rfl⟩ := free_ok h
  simp [Memory.find, assocGet_erase_other _ (toNat_ne_of_ne hne)]

/-- Free keeps the canonical form. -/
theorem Memory.free_wf {m m' : Memory} {id : Word} (hw : m.wf) (h : m.free id = .ok m') : m'.wf := by
  obtain ⟨-, -, rfl⟩ := free_ok h
  exact ⟨hw.1, keysRise_erase hw.2.1, fun p hp => hw.2.2 p (mem_assocErase hp).1⟩

/-- A copy is the segment itself as data (R42). -/
theorem Memory.duplicate_ok {m : Memory} {id : Word} {g : Segment} (h : m.duplicate id = .ok g) :
    m.find id = some g := by
  unfold Memory.duplicate at h
  split at h
  · cases h
  · next hg => cases h; exact hg

/-- The reset memory is in canonical form. -/
theorem reset_mem_wf : State.reset.mem.wf := by decide

/-- So is the memory after VM init from at most 2^32 - 1 words. -/
theorem install_ofWords_wf {m : Memory} {ws : List Word} (hm : m.wf) (h : ws.length < 2 ^ 32) :
    (m.install (Segment.ofWords ws)).wf :=
  Memory.install_wf hm (Segment.ofWords_wf h)

/-! ## The allocator -/

theorem Memory.fresh_iff (m : Memory) (k : Word) : m.fresh k = true ↔ k ≠ 0#32 ∧ m.live k = false := by
  simp [Memory.fresh]

/-- An identifier Alloc picks is not 0 and not live (R40, R59). -/
theorem AllocState.choose_fresh {a : AllocState} {m : Memory} {k : Word} (h : a.choose m = some k) :
    k ≠ 0#32 ∧ m.live k = false := (m.fresh_iff k).1 (List.find?_some h)

/-- In a store of canonical form, Alloc finds no identifier only when every non-zero one is live (R40). -/
theorem AllocState.choose_none {a : AllocState} {m : Memory} (hw : m.wf) (h : a.choose m = none) {k : Word}
    (hk : k ≠ 0#32) : m.live k = true := by
  have hall := List.find?_eq_none.1 h
  have hlow : ¬ m.fresh (BitVec.ofNat 32 (lowestAbsent 1 m.segs)) = true :=
    hall _ (by simp [AllocState.candidates])
  have habs := assocGet_lowestAbsent hw.2.1 (fun p hp => (hw.2.2 p hp).1)
  by_cases hbig : 2 ^ 32 ≤ lowestAbsent 1 m.segs
  · have hs := assocGet_of_lt_lowestAbsent (l := m.segs) (toNat_pos_of_ne_zero hk)
      (Nat.lt_of_lt_of_le k.isLt hbig)
    simpa [Memory.live, Memory.find, hk] using hs
  · have hto : (BitVec.ofNat 32 (lowestAbsent 1 m.segs)).toNat = lowestAbsent 1 m.segs := by
      rw [BitVec.toNat_ofNat]; exact Nat.mod_eq_of_lt (by omega)
    have hpos := le_lowestAbsent 1 m.segs
    have h0 : BitVec.ofNat 32 (lowestAbsent 1 m.segs) ≠ 0#32 := fun e => by
      rw [e] at hto; simp at hto; omega
    refine absurd ((m.fresh_iff _).2 ⟨h0, ?_⟩) hlow
    simp [Memory.live, Memory.find, h0, hto, habs]

end Sys2Proof.Machine
end

