-- ==== Sys2Proof/Laws/Exec.lean ====
section
/-! SUPPORT. One lemma per shared operation that says once everything it can do; proofs about instructions and steps cite
these. -/

namespace Sys2Proof.Machine

/-- How an instruction over a faulting primitive ends. -/
theorem finish_cases {α : Type} {r : State × Except FaultKind α} {go : α → State → State} {t : State}
    (h : finish r go = .next t) :
    (∃ v, r.2 = .ok v ∧ t = go v r.1) ∨ ∃ k, r.2 = .error k ∧ t = r.1.raise k := by
  obtain ⟨s, v | k⟩ := r
  · next => cases h; exact .inr ⟨_, rfl, rfl⟩
  · next => cases h; exact .inl ⟨_, rfl, rfl⟩

@[simp] theorem finish_ok {α : Type} (s : State) (v : α) (go : α → State → State) :
    finish (s, .ok v) go = .next (go v s) := rfl

@[simp] theorem finish_error {α : Type} (s : State) (k : FaultKind) (go : α → State → State) :
    finish (s, .error k) go = .next (s.raise k) := rfl

/-- What an ALU instruction does. -/
theorem State.aluTo_cases (s : State) (op : AluOp) (a b c : Reg) :
    (op = .div ∧ s.x c = 0#32 ∧ s.aluTo op a b c = s.raise .divideByZero) ∨
    (¬ (op = .div ∧ s.x c = 0#32) ∧ s.aluTo op a b c = s.setX a (alu op (s.x b) (s.x c)).r) := by
  cases op
  case div =>
    by_cases h : s.x c = 0#32
    · exact .inl ⟨rfl, h, by simp [State.aluTo, alu, divisorIsZero, h]⟩
    · exact .inr ⟨fun e => h e.2, by simp [State.aluTo, alu, divisorIsZero, h]⟩
  all_goals exact .inr ⟨fun e => (nomatch e.1), by simp [State.aluTo, alu]⟩

/-- What Alloc does: it is refused, or a fresh identifier names a new segment (R40). -/
theorem State.allocSegment_cases (s : State) (n : Word) :
    (s.allocSegment n = (s.afterOomDraw, .error .outOfHostMemory) ∧
      (s.host.nextOom = true ∨ s.alloc.choose s.mem = none)) ∨
    ∃ k, s.host.nextOom = false ∧ s.alloc.choose s.mem = some k ∧ k ≠ 0#32 ∧ s.mem.live k = false ∧
      s.allocSegment n =
        ((s.afterOomDraw.withMem (s.mem.create k n)).withAlloc (s.alloc.update k), .ok k) := by
  unfold State.allocSegment
  by_cases ho : s.host.nextOom = true
  · exact .inl ⟨by simp [ho], .inl ho⟩
  · simp only [ho]
    cases hc : s.alloc.choose s.mem with
    | none => exact .inl ⟨rfl, .inr rfl⟩
    | some k =>
      exact .inr ⟨k, by simp, rfl, (AllocState.choose_fresh hc).1, (AllocState.choose_fresh hc).2, rfl⟩

/-- What Free does (R41). -/
theorem State.freeSegment_cases (s : State) (id : Word) :
    (id = 0#32 ∧ s.freeSegment id = (s, .error .abandonSegmentZero)) ∨
    (id ≠ 0#32 ∧ s.mem.live id = false ∧ s.freeSegment id = (s, .error .invalidSegment)) ∨
    ∃ m, id ≠ 0#32 ∧ s.mem.live id = true ∧ s.mem.free id = .ok m ∧
      s.freeSegment id = ((s.withMem m).withAlloc (s.alloc.release id), .ok ()) := by
  unfold State.freeSegment
  by_cases h0 : id = 0#32
  · exact .inl ⟨h0, by simp [Memory.free, h0]⟩
  · cases hl : s.mem.live id with
    | false => exact .inr (.inl ⟨h0, rfl, by simp [Memory.free, h0, hl]⟩)
    | true =>
      have hf : s.mem.free id = .ok { s.mem with segs := assocErase id.toNat s.mem.segs } := by
        simp [Memory.free, h0, hl]
      exact .inr (.inr ⟨_, h0, rfl, hf, by rw [hf]⟩)

/-- What Duplicate does (R42). -/
theorem State.duplicateSegment_cases (s : State) (id : Word) :
    (s.mem.find id = none ∧ s.duplicateSegment id = (s, .error .invalidSegment)) ∨
    (∃ g, s.mem.find id = some g ∧ s.host.nextOom = true ∧
      s.duplicateSegment id = (s.afterOomDraw, .error .outOfHostMemory)) ∨
    ∃ g, s.mem.find id = some g ∧ s.host.nextOom = false ∧
      s.duplicateSegment id = (s.afterOomDraw, .ok g) := by
  unfold State.duplicateSegment Memory.duplicate
  cases hf : s.mem.find id with
  | none => exact .inl ⟨rfl, rfl⟩
  | some g =>
    cases ho : s.host.nextOom with
    | true => exact .inr (.inl ⟨g, rfl, rfl, by simp⟩)
    | false => exact .inr (.inr ⟨g, rfl, rfl, by simp⟩)

/-- What a host write does (R91, R96). -/
theorem State.hostWrite_cases (s : State) (b : Byte) :
    (s.host.nextWrite = .ok ∧ s.hostWrite b = (s.afterWrite b, .ok ())) ∨
    ∃ d, s.host.nextWrite = .ioerr d ∧ s.hostWrite b = (s.afterWrite b, .error .hostIOError) := by
  unfold State.hostWrite
  cases h : s.host.nextWrite with
  | ok => exact .inl ⟨rfl, rfl⟩
  | ioerr d => exact .inr ⟨d, rfl, rfl⟩

/-! ## One inversion lemma per instruction: every way it can end -/

theorem exec_cmov_cases (a b c : Reg) (s : State) :
    (s.x c = 0#32 ∧ exec (.cmov a b c) s = .next s) ∨
    (s.x c ≠ 0#32 ∧ exec (.cmov a b c) s = .next (s.setX a (s.x b))) := by
  by_cases h : s.x c = 0#32
  · exact .inl ⟨h, by simp [exec, execCmov, conditionHolds, h]⟩
  · exact .inr ⟨h, by simp [exec, execCmov, conditionHolds, h]⟩

theorem exec_add (a b c : Reg) (s : State) : exec (.add a b c) s = .next (s.setX a (s.x b + s.x c)) := rfl

theorem exec_mul (a b c : Reg) (s : State) : exec (.mul a b c) s = .next (s.setX a (s.x b * s.x c)) := rfl

theorem exec_nand (a b c : Reg) (s : State) : exec (.nand a b c) s = .next (s.setX a (~~~(s.x b &&& s.x c))) := rfl

theorem exec_div_cases (a b c : Reg) (s : State) :
    (s.x c = 0#32 ∧ exec (.div a b c) s = .next (s.raise .divideByZero)) ∨
    (s.x c ≠ 0#32 ∧ exec (.div a b c) s = .next (s.setX a (s.x b / s.x c))) := by
  rcases s.aluTo_cases .div a b c with ⟨-, h, e⟩ | ⟨h, e⟩
  · exact .inl ⟨h, by simp [exec, execDiv, e]⟩
  · exact .inr ⟨fun h0 => h ⟨rfl, h0⟩, by simp [exec, execDiv, e, alu]⟩

theorem exec_lc (a : Reg) (imm : Word) (s : State) : exec (.lc a imm) s = .next (s.setX a imm) := rfl

theorem exec_halt (s : State) : exec .halt s = .next s.halt := rfl

theorem exec_illegal14 (s : State) : exec .illegal14 s = .next (s.raise .illegalInstruction) := rfl

theorem exec_illegal15 (s : State) : exec .illegal15 s = .next (s.raise .illegalInstruction) := rfl

theorem exec_index_cases (a b c : Reg) (s : State) :
    (s.mem.find (s.x b) = none ∧ exec (.index a b c) s = .next (s.raise .invalidSegment)) ∨
    (∃ g, s.mem.find (s.x b) = some g ∧ ¬ g.inBounds (s.x c) ∧
      exec (.index a b c) s = .next (s.raise .segmentOffsetOutOfBounds)) ∨
    ∃ g, s.mem.find (s.x b) = some g ∧ g.inBounds (s.x c) ∧
      exec (.index a b c) s = .next (s.setX a (g.get (s.x c))) := by
  cases hf : s.mem.find (s.x b) with
  | none => exact .inl ⟨rfl, by simp [exec, execIndex, Memory.read, hf]⟩
  | some g =>
    by_cases hb : g.inBounds (s.x c)
    · exact .inr (.inr ⟨g, rfl, hb, by rw [exec, execIndex, Memory.read_eq_ok hf hb, finish_ok]⟩)
    · have hr : s.mem.read (s.x b) (s.x c) = .error .segmentOffsetOutOfBounds := by
        simp only [Memory.read, hf]; exact if_neg hb
      exact .inr (.inl ⟨g, rfl, hb, by rw [exec, execIndex, hr, finish_error]⟩)

theorem exec_amend_cases (a b c : Reg) (s : State) :
    (s.mem.find (s.x a) = none ∧ exec (.amend a b c) s = .next (s.raise .invalidSegment)) ∨
    (∃ g, s.mem.find (s.x a) = some g ∧ ¬ g.inBounds (s.x b) ∧
      exec (.amend a b c) s = .next (s.raise .segmentOffsetOutOfBounds)) ∨
    ∃ m, s.mem.write (s.x a) (s.x b) (s.x c) = .ok m ∧ exec (.amend a b c) s = .next (s.withMem m) := by
  cases hf : s.mem.find (s.x a) with
  | none => exact .inl ⟨rfl, by simp [exec, execAmend, Memory.write, hf]⟩
  | some g =>
    by_cases hb : g.inBounds (s.x b)
    · have hw := Memory.write_eq_ok (s.x c) hf hb
      exact .inr (.inr ⟨_, hw, by rw [exec, execAmend, hw, finish_ok]⟩)
    · have hr : s.mem.write (s.x a) (s.x b) (s.x c) = .error .segmentOffsetOutOfBounds := by
        simp only [Memory.write, hf]; exact if_neg hb
      exact .inr (.inl ⟨g, rfl, hb, by rw [exec, execAmend, hr, finish_error]⟩)

theorem exec_alloc_cases (b c : Reg) (s : State) :
    ((s.host.nextOom = true ∨ s.alloc.choose s.mem = none) ∧
      exec (.alloc b c) s = .next (s.afterOomDraw.raise .outOfHostMemory)) ∨
    ∃ k, s.host.nextOom = false ∧ s.alloc.choose s.mem = some k ∧ k ≠ 0#32 ∧ s.mem.live k = false ∧
      exec (.alloc b c) s = .next
        (((s.afterOomDraw.withMem (s.mem.create k (s.x c))).withAlloc (s.alloc.update k)).setX b k) := by
  rcases s.allocSegment_cases (s.x c) with ⟨e, h⟩ | ⟨k, ho, hc, h0, hl, e⟩
  · exact .inl ⟨h, by rw [exec, execAlloc, e, finish_error]⟩
  · exact .inr ⟨k, ho, hc, h0, hl, by rw [exec, execAlloc, e, finish_ok]⟩

theorem exec_abandon_cases (c : Reg) (s : State) :
    (s.x c = 0#32 ∧ exec (.abandon c) s = .next (s.raise .abandonSegmentZero)) ∨
    (s.x c ≠ 0#32 ∧ s.mem.live (s.x c) = false ∧ exec (.abandon c) s = .next (s.raise .invalidSegment)) ∨
    ∃ m, s.x c ≠ 0#32 ∧ s.mem.live (s.x c) = true ∧ s.mem.free (s.x c) = .ok m ∧
      exec (.abandon c) s = .next ((s.withMem m).withAlloc (s.alloc.release (s.x c))) := by
  rcases s.freeSegment_cases (s.x c) with ⟨h, e⟩ | ⟨h, hl, e⟩ | ⟨m, h, hl, hm, e⟩
  · exact .inl ⟨h, by rw [exec, execAbandon, e, finish_error]⟩
  · exact .inr (.inl ⟨h, hl, by rw [exec, execAbandon, e, finish_error]⟩)
  · exact .inr (.inr ⟨m, h, hl, hm, by rw [exec, execAbandon, e, finish_ok]⟩)

theorem exec_out_cases (c : Reg) (s : State) :
    (255 < (s.x c).toNat ∧ exec (.out c) s = .next (s.raise .outputOutOfRange)) ∨
    ((s.x c).toNat ≤ 255 ∧ s.host.nextWrite = .ok ∧
      exec (.out c) s = .next (s.afterWrite (outByte (s.x c)))) ∨
    ∃ d, (s.x c).toNat ≤ 255 ∧ s.host.nextWrite = .ioerr d ∧
      exec (.out c) s = .next ((s.afterWrite (outByte (s.x c))).raise .hostIOError) := by
  by_cases hb : 255 < (s.x c).toNat
  · exact .inl ⟨hb, by simp [exec, execOut, aboveByte, hb]⟩
  · have hle : (s.x c).toNat ≤ 255 := Nat.le_of_not_lt hb
    rcases s.hostWrite_cases (outByte (s.x c)) with ⟨h, e⟩ | ⟨d, h, e⟩
    · exact .inr (.inl ⟨hle, h, by simp [exec, execOut, aboveByte, hb, e]⟩)
    · exact .inr (.inr ⟨d, hle, h, by simp [exec, execOut, aboveByte, hb, e]⟩)

theorem exec_in_cases (c : Reg) (s : State) :
    (∃ v, s.host.nextRead = .byte v ∧ exec (.inp c) s = .next (s.afterRead.setX c (inByte v))) ∨
    (s.host.nextRead = .eof ∧ exec (.inp c) s = .next (s.afterRead.setX c eofWord)) ∨
    (s.host.nextRead = .ioerr ∧ exec (.inp c) s = .next (s.afterRead.raise .hostIOError)) ∨
    (s.host.nextRead = .notYet ∧ exec (.inp c) s = .next s.afterRead.unfetch) := by
  cases h : s.host.nextRead with
  | byte v => exact .inl ⟨v, rfl, by simp [exec, execIn, h]⟩
  | eof => exact .inr (.inl ⟨rfl, by simp [exec, execIn, h]⟩)
  | ioerr => exact .inr (.inr (.inl ⟨rfl, by simp [exec, execIn, h]⟩))
  | notYet => exact .inr (.inr (.inr ⟨rfl, by simp [exec, execIn, h]⟩))

theorem exec_loadprog_cases (b c : Reg) (s : State) :
    (s.x b = 0#32 ∧ exec (.loadprog b c) s = .next (s.setIp (s.x c))) ∨
    (s.x b ≠ 0#32 ∧ s.mem.find (s.x b) = none ∧ exec (.loadprog b c) s = .next (s.raise .invalidSegment)) ∨
    (∃ g, s.x b ≠ 0#32 ∧ s.mem.find (s.x b) = some g ∧ s.host.nextOom = true ∧
      exec (.loadprog b c) s = .next (s.afterOomDraw.raise .outOfHostMemory)) ∨
    ∃ g, s.x b ≠ 0#32 ∧ s.mem.find (s.x b) = some g ∧ s.host.nextOom = false ∧
      exec (.loadprog b c) s = .next ((s.afterOomDraw.withMem (s.mem.install g)).setIp (s.x c)) := by
  by_cases h0 : s.x b = 0#32
  · exact .inl ⟨h0, by simp [exec, execLoadprog, h0]⟩
  · rcases s.duplicateSegment_cases (s.x b) with ⟨hf, e⟩ | ⟨g, hf, ho, e⟩ | ⟨g, hf, ho, e⟩
    · exact .inr (.inl ⟨h0, hf, by rw [exec, execLoadprog, if_neg h0, e, finish_error]⟩)
    · exact .inr (.inr (.inl ⟨g, h0, hf, ho, by rw [exec, execLoadprog, if_neg h0, e, finish_error]⟩))
    · exact .inr (.inr (.inr ⟨g, h0, hf, ho, by rw [exec, execLoadprog, if_neg h0, e, finish_ok]; rfl⟩))

/-! ## Every way an instruction can end, in one relation -/

/-- What instruction i, executed in s, can leave: one constructor per way it can end. -/
inductive State.Ends (s : State) : Instr → State → Prop where
  | cmovFalse (a b c) (h : s.x c = 0#32) : s.Ends (.cmov a b c) s
  | cmovTrue (a b c) (h : s.x c ≠ 0#32) : s.Ends (.cmov a b c) (s.setX a (s.x b))
  | indexDead (a b c) (hf : s.mem.find (s.x b) = none) : s.Ends (.index a b c) (s.raise .invalidSegment)
  | indexOut (a b c g) (hf : s.mem.find (s.x b) = some g) (hb : ¬ g.inBounds (s.x c)) :
    s.Ends (.index a b c) (s.raise .segmentOffsetOutOfBounds)
  | index (a b c g) (hf : s.mem.find (s.x b) = some g) (hb : g.inBounds (s.x c)) :
    s.Ends (.index a b c) (s.setX a (g.get (s.x c)))
  | amendDead (a b c) (hf : s.mem.find (s.x a) = none) : s.Ends (.amend a b c) (s.raise .invalidSegment)
  | amendOut (a b c g) (hf : s.mem.find (s.x a) = some g) (hb : ¬ g.inBounds (s.x b)) :
    s.Ends (.amend a b c) (s.raise .segmentOffsetOutOfBounds)
  | amend (a b c m) (hw : s.mem.write (s.x a) (s.x b) (s.x c) = .ok m) : s.Ends (.amend a b c) (s.withMem m)
  | add (a b c) : s.Ends (.add a b c) (s.setX a (s.x b + s.x c))
  | mul (a b c) : s.Ends (.mul a b c) (s.setX a (s.x b * s.x c))
  | divZero (a b c) (h : s.x c = 0#32) : s.Ends (.div a b c) (s.raise .divideByZero)
  | div (a b c) (h : s.x c ≠ 0#32) : s.Ends (.div a b c) (s.setX a (s.x b / s.x c))
  | nand (a b c) : s.Ends (.nand a b c) (s.setX a (~~~(s.x b &&& s.x c)))
  | halt : s.Ends .halt s.halt
  | allocRefused (b c) (h : s.host.nextOom = true ∨ s.alloc.choose s.mem = none) :
    s.Ends (.alloc b c) (s.afterOomDraw.raise .outOfHostMemory)
  | alloc (b c k) (ho : s.host.nextOom = false) (hc : s.alloc.choose s.mem = some k) (h0 : k ≠ 0#32)
    (hl : s.mem.live k = false) : s.Ends (.alloc b c)
      (((s.afterOomDraw.withMem (s.mem.create k (s.x c))).withAlloc (s.alloc.update k)).setX b k)
  | abandonZero (c) (h : s.x c = 0#32) : s.Ends (.abandon c) (s.raise .abandonSegmentZero)
  | abandonDead (c) (h : s.x c ≠ 0#32) (hl : s.mem.live (s.x c) = false) :
    s.Ends (.abandon c) (s.raise .invalidSegment)
  | abandon (c m) (h : s.x c ≠ 0#32) (hl : s.mem.live (s.x c) = true) (hm : s.mem.free (s.x c) = .ok m) :
    s.Ends (.abandon c) ((s.withMem m).withAlloc (s.alloc.release (s.x c)))
  | outRange (c) (h : 255 < (s.x c).toNat) : s.Ends (.out c) (s.raise .outputOutOfRange)
  | out (c) (h : (s.x c).toNat ≤ 255) (hw : s.host.nextWrite = .ok) :
    s.Ends (.out c) (s.afterWrite (outByte (s.x c)))
  | outError (c d) (h : (s.x c).toNat ≤ 255) (hw : s.host.nextWrite = .ioerr d) :
    s.Ends (.out c) ((s.afterWrite (outByte (s.x c))).raise .hostIOError)
  | inByte (c v) (h : s.host.nextRead = .byte v) : s.Ends (.inp c) (s.afterRead.setX c (inByte v))
  | inEof (c) (h : s.host.nextRead = .eof) : s.Ends (.inp c) (s.afterRead.setX c eofWord)
  | inError (c) (h : s.host.nextRead = .ioerr) : s.Ends (.inp c) (s.afterRead.raise .hostIOError)
  | inWait (c) (h : s.host.nextRead = .notYet) : s.Ends (.inp c) s.afterRead.unfetch
  | jump (b c) (h : s.x b = 0#32) : s.Ends (.loadprog b c) (s.setIp (s.x c))
  | loadDead (b c) (h : s.x b ≠ 0#32) (hf : s.mem.find (s.x b) = none) :
    s.Ends (.loadprog b c) (s.raise .invalidSegment)
  | loadRefused (b c g) (h : s.x b ≠ 0#32) (hf : s.mem.find (s.x b) = some g) (ho : s.host.nextOom = true) :
    s.Ends (.loadprog b c) (s.afterOomDraw.raise .outOfHostMemory)
  | load (b c g) (h : s.x b ≠ 0#32) (hf : s.mem.find (s.x b) = some g) (ho : s.host.nextOom = false) :
    s.Ends (.loadprog b c) ((s.afterOomDraw.withMem (s.mem.install g)).setIp (s.x c))
  | lc (a imm) : s.Ends (.lc a imm) (s.setX a imm)
  | illegal14 : s.Ends .illegal14 (s.raise .illegalInstruction)
  | illegal15 : s.Ends .illegal15 (s.raise .illegalInstruction)

/-- Every instruction ends in one of these ways, and execution answers exactly that next state. -/
theorem exec_ends (i : Instr) (s : State) : ∃ t, exec i s = .next t ∧ s.Ends i t := by
  cases i with
  | cmov a b c => rcases exec_cmov_cases a b c s with ⟨h, e⟩ | ⟨h, e⟩ <;> exact ⟨_, e, by constructor; assumption⟩
  | index a b c =>
    rcases exec_index_cases a b c s with ⟨h, e⟩ | ⟨g, h, hb, e⟩ | ⟨g, h, hb, e⟩
    · exact ⟨_, e, .indexDead a b c h⟩
    · exact ⟨_, e, .indexOut a b c g h hb⟩
    · exact ⟨_, e, .index a b c g h hb⟩
  | amend a b c =>
    rcases exec_amend_cases a b c s with ⟨h, e⟩ | ⟨g, h, hb, e⟩ | ⟨m, hw, e⟩
    · exact ⟨_, e, .amendDead a b c h⟩
    · exact ⟨_, e, .amendOut a b c g h hb⟩
    · exact ⟨_, e, .amend a b c m hw⟩
  | add a b c => exact ⟨_, exec_add a b c s, .add a b c⟩
  | mul a b c => exact ⟨_, exec_mul a b c s, .mul a b c⟩
  | div a b c =>
    rcases exec_div_cases a b c s with ⟨h, e⟩ | ⟨h, e⟩
    · exact ⟨_, e, .divZero a b c h⟩
    · exact ⟨_, e, .div a b c h⟩
  | nand a b c => exact ⟨_, exec_nand a b c s, .nand a b c⟩
  | halt => exact ⟨_, exec_halt s, .halt⟩
  | alloc b c =>
    rcases exec_alloc_cases b c s with ⟨h, e⟩ | ⟨k, ho, hc, h0, hl, e⟩
    · exact ⟨_, e, .allocRefused b c h⟩
    · exact ⟨_, e, .alloc b c k ho hc h0 hl⟩
  | abandon c =>
    rcases exec_abandon_cases c s with ⟨h, e⟩ | ⟨h, hl, e⟩ | ⟨m, h, hl, hm, e⟩
    · exact ⟨_, e, .abandonZero c h⟩
    · exact ⟨_, e, .abandonDead c h hl⟩
    · exact ⟨_, e, .abandon c m h hl hm⟩
  | out c =>
    rcases exec_out_cases c s with ⟨h, e⟩ | ⟨h, hw, e⟩ | ⟨d, h, hw, e⟩
    · exact ⟨_, e, .outRange c h⟩
    · exact ⟨_, e, .out c h hw⟩
    · exact ⟨_, e, .outError c d h hw⟩
  | inp c =>
    rcases exec_in_cases c s with ⟨v, h, e⟩ | ⟨h, e⟩ | ⟨h, e⟩ | ⟨h, e⟩
    · exact ⟨_, e, .inByte c v h⟩
    · exact ⟨_, e, .inEof c h⟩
    · exact ⟨_, e, .inError c h⟩
    · exact ⟨_, e, .inWait c h⟩
  | loadprog b c =>
    rcases exec_loadprog_cases b c s with ⟨h, e⟩ | ⟨h, hf, e⟩ | ⟨g, h, hf, ho, e⟩ | ⟨g, h, hf, ho, e⟩
    · exact ⟨_, e, .jump b c h⟩
    · exact ⟨_, e, .loadDead b c h hf⟩
    · exact ⟨_, e, .loadRefused b c g h hf ho⟩
    · exact ⟨_, e, .load b c g h hf ho⟩
  | lc a imm => exact ⟨_, exec_lc a imm s, .lc a imm⟩
  | illegal14 => exact ⟨_, exec_illegal14 s, .illegal14⟩
  | illegal15 => exact ⟨_, exec_illegal15 s, .illegal15⟩

/-- Inversion: a next state is one of the ways the instruction can end. -/
theorem exec_inv {i : Instr} {s t : State} (h : exec i s = .next t) : s.Ends i t := by
  obtain ⟨t', e, he⟩ := exec_ends i s
  rw [h] at e
  cases e
  exact he

/-! ## The step -/

/-- A boundary that lets the step go on: status running and no cancellation here (R83, R107). -/
theorem State.boundary_go_iff (s : State) :
    s.boundary = .go ↔ s.status = .running ∧ s.host.cancelIn ≠ some 0 := by
  unfold State.boundary
  cases hs : s.status <;> cases hc : s.host.cancelIn with
  | none => simp
  | some n => cases n <;> simp

/-- What a fetch answers (R83). -/
theorem State.fetchWord_cases (s : State) :
    (s.mem.seg0.inBounds s.ip ∧ s.fetchWord = .ok (s.mem.seg0.get s.ip)) ∨
    (¬ s.mem.seg0.inBounds s.ip ∧ s.fetchWord = .error .instructionPointerOutOfBounds) := by
  unfold State.fetchWord
  by_cases h : s.mem.seg0.inBounds s.ip
  · exact .inl ⟨h, if_pos h⟩
  · exact .inr ⟨h, if_neg h⟩

/-- Everything a step that answers a next state did: it ran in status running, was not cancelled, and either the fetch
was out of bounds or the fetched word's instruction executed (R83). -/
theorem step_cases {s t : State} (h : step s = .next t) :
    s.status = .running ∧ s.host.cancelIn ≠ some 0 ∧
    ((¬ s.mem.seg0.inBounds s.ip ∧ t = s.passBoundary.raise .instructionPointerOutOfBounds) ∨
      (s.mem.seg0.inBounds s.ip ∧
        exec (decode (s.mem.seg0.get s.ip)) s.passBoundary.advance = .next t)) := by
  unfold step at h
  cases hb : s.boundary with
  | stop f => simp only [hb] at h; cases h
  | go =>
    obtain ⟨hr, hc⟩ := (s.boundary_go_iff).1 hb
    refine ⟨hr, hc, ?_⟩
    simp only [hb] at h
    rcases s.passBoundary.fetchWord_cases with ⟨hi, hf⟩ | ⟨hi, hf⟩
    · simp only [hf] at h; exact .inr ⟨hi, h⟩
    · simp only [hf] at h; cases h; exact .inl ⟨hi, rfl⟩

/-- Package of the induction over a run: what one step keeps, every run keeps. -/
theorem run_keeps {P : State → Prop} (hstep : ∀ s t, P s → step s = .next t → P t) :
    ∀ (n : Nat) (s t : State), P s → Sys2Proof.core.run n s = .next t → P t
  | 0, s, t, hs, h => by cases h; exact hs
  | n + 1, s, t, hs, h => by
    simp only [Host.Core.run] at h
    cases hst : step s with
    | next s' =>
      have : Sys2Proof.core.step s = .next s' := hst
      simp only [this] at h
      exact run_keeps hstep n s' t (hstep s s' hs hst) h
    | fault r => have : Sys2Proof.core.step s = .fault r := hst; simp only [this] at h; cases h
    | refused r => have : Sys2Proof.core.step s = .refused r := hst; simp only [this] at h; cases h

end Sys2Proof.Machine
end

