-- ==== Sys2Proof/Laws/Alloc.lean ====
section
/-! SUPPORT. The allocator's hidden state agrees with the store after every operation of either (spec/20_memory.md R40,
R41, R52), and the frame relations are reflexive. -/

namespace Sys2Proof.Machine

theorem Memory.live_create (m : Memory) (k n id : Word) : (m.create k n).live id = (decide (id = k) || m.live id) := by
  by_cases h : id = k <;> simp [Memory.live, Memory.create, Memory.find_put, h]

theorem Memory.live_free {m m' : Memory} {id : Word} (h : m.free id = .ok m') (id' : Word) :
    m'.live id' = (decide (id' ≠ id) && m.live id') := by
  by_cases he : id' = id
  · subst he; simp [Memory.live, Memory.find_free_same h]
  · simp [Memory.live, Memory.find_free_other h he, he]

theorem AllocState.wf_iff (a : AllocState) (m : Memory) :
    a.wf m ↔ a.free.Nodup ∧ (∀ k ∈ a.free, k ≠ 0#32 ∧ m.live k = false) ∧ 1 ≤ a.next ∧ a.next ≤ 4294967296 := by
  simp only [AllocState.wf, List.all_eq_true, Memory.fresh_iff]

/-- After Alloc the allocator agrees with the store that holds the new segment. -/
theorem AllocState.update_wf {a : AllocState} {m : Memory} {k : Word} (n : Word) (h : a.wf m) :
    (a.update k).wf (m.create k n) := by
  obtain ⟨hn, hf, h1, h2⟩ := (a.wf_iff m).1 h
  refine (AllocState.wf_iff _ _).2 ⟨hn.erase k, fun j hj => ?_, ?_, ?_⟩
  · obtain ⟨hjk, hj⟩ := (hn.mem_erase_iff).1 hj
    obtain ⟨h0, hl⟩ := hf j hj
    exact ⟨h0, by simp [Memory.live_create, hjk, hl]⟩
  · simp only [AllocState.update]; split <;> omega
  · have := k.isLt
    simp only [AllocState.update]; split <;> omega

/-- After Free the allocator agrees with the store without the segment. -/
theorem AllocState.release_wf {a : AllocState} {m m' : Memory} {id : Word} (h : a.wf m) (hf : m.free id = .ok m') :
    (a.release id).wf m' := by
  obtain ⟨hn, hfr, h1, h2⟩ := (a.wf_iff m).1 h
  obtain ⟨h0, hl, -⟩ := Memory.free_ok hf
  have hnot : id ∉ a.free := fun hmem => by
    have := (hfr id hmem).2
    rw [hl] at this; cases this
  refine (AllocState.wf_iff _ _).2 ⟨List.nodup_cons.2 ⟨hnot, hn⟩, fun j hj => ?_, h1, h2⟩
  rcases List.mem_cons.1 hj with rfl | hj
  · exact ⟨h0, by simp [Memory.live_free hf]⟩
  · obtain ⟨hj0, hjl⟩ := hfr j hj
    exact ⟨hj0, by simp [Memory.live_free hf, hjl]⟩

/-- Installing a program changes no non-zero identifier, so the allocator agrees as before. -/
theorem AllocState.install_wf {a : AllocState} {m : Memory} (g : Segment) (h : a.wf m) : a.wf (m.install g) := by
  obtain ⟨hn, hf, h12⟩ := (a.wf_iff m).1 h
  refine (AllocState.wf_iff _ _).2 ⟨hn, fun j hj => ?_, h12⟩
  obtain ⟨h0, hl⟩ := hf j hj
  exact ⟨h0, by simpa [Memory.live, Memory.find_install, h0] using hl⟩

/-- A write changes which identifiers are live in no way, so the allocator agrees as before. -/
theorem AllocState.write_wf {a : AllocState} {m m' : Memory} {id off v : Word} (h : a.wf m)
    (hw : m.write id off v = .ok m') : a.wf m' := by
  obtain ⟨hn, hf, h12⟩ := (a.wf_iff m).1 h
  refine (AllocState.wf_iff _ _).2 ⟨hn, fun j hj => ?_, h12⟩
  obtain ⟨h0, hl⟩ := hf j hj
  exact ⟨h0, (Memory.live_write j hw).trans hl⟩

/-- If all answers to come have a property, so do the first and all later ones. -/
theorem Answers.All.head_tail {α : Type} {f : Nat → Nat → α} {p : α → Prop} {q : Answers α} (h : q.All f p) :
    p (q.head f) ∧ q.tail.All f p := by
  obtain ⟨_ | ⟨a, l⟩, r⟩ := q
  · cases r with
    | always a => exact ⟨h.2, h.1, h.2⟩
    | oracle o n => exact ⟨h.2 n le_rfl, h.1, fun k hk => h.2 k (by omega)⟩
  · exact ⟨h.1 a List.mem_cons_self, fun b hb => h.1 b (List.mem_cons_of_mem a hb), h.2⟩

/-- The reference policy stays in force. -/
theorem AllocState.isReference_update {a : AllocState} (h : a.isReference) (k : Word) : (a.update k).isReference :=
  ⟨by simp [AllocState.update, h.1], by simp [AllocState.update, h.2, Policy.update]⟩

/-- The reference policy stays in force. -/
theorem AllocState.isReference_release {a : AllocState} (h : a.isReference) (id : Word) :
    (a.release id).isReference :=
  ⟨h.1, by simp [AllocState.release, h.2, Policy.release]⟩

/-- What the reference policy considers, in order (R52). -/
theorem AllocState.candidates_reference {a : AllocState} (h : a.isReference) (m : Memory) :
    a.candidates m = a.free ++ [BitVec.ofNat 32 a.next, BitVec.ofNat 32 (lowestAbsent 1 m.segs)] := by
  simp [AllocState.candidates, h.1, h.2]

/-- The choice of an implementation's own policy, where it keeps the constraint of R40, is the one taken. -/
theorem AllocState.choose_own {a : AllocState} {m : Memory} {p h : Nat} (hp : a.picks = []) (ho : a.policy = .own p h)
    (hf : m.fresh (Config.policyChoose p h) = true) : a.choose m = some (Config.policyChoose p h) := by
  simp [AllocState.choose, AllocState.candidates, hp, ho, Policy.choice, hf]

@[refl] theorem Memory.readsAs_refl (m : Memory) : m.readsAs m := ⟨fun _ _ => rfl, fun _ => rfl, fun _ => rfl⟩

@[refl] theorem State.engineSame_refl (s : State) : s.engineSame s := ⟨rfl, rfl, rfl, rfl, rfl⟩

theorem Memory.segmentAs_refl (m : Memory) (id : Word) : m.segmentAs m id := ⟨fun _ => rfl, rfl, rfl⟩

/-- A segment found as before is as before. -/
theorem Memory.segmentAs_of_find {m m' : Memory} {id : Word} (h : m'.find id = m.find id) : m.segmentAs m' id :=
  ⟨fun off => by simp [Memory.read, h], by simp [Memory.length?, h], by simp [Memory.live, h]⟩

/-- Writing one register changes that register alone. -/
theorem State.wroteOnly_setX (s : State) (r : Reg) (v : Word) : s.wroteOnly (s.setX r v) r v :=
  ⟨s.x_setX_same r v, fun _ hq => s.x_setX_other v (fun e => hq (e ▸ List.mem_cons_self)),
    Memory.readsAs_refl _, State.engineSame_refl _⟩

/-- A raise commits nothing else. -/
theorem State.faultedOnly_raise (s : State) (k : FaultKind) : s.faultedOnly (s.raise k) k :=
  ⟨rfl, rfl, fun _ => rfl, rfl, Memory.readsAs_refl _, rfl⟩

end Sys2Proof.Machine
end

