-- ==== Sys2Proof/Laws/Decode.lean ====
section
/-! SUPPORT. The fields of the encoder's words, and that selectors and registers correspond (spec/30_encoding.md R62 to
R64, R69). -/

namespace Sys2Proof

@[simp] theorem Reg.ofBits_bits (r : Reg) : Reg.ofBits r.bits = r := by cases r <;> rfl

@[simp] theorem Reg.bits_ofBits (n : BitVec 3) : (Reg.ofBits n).bits = n := by revert n; decide

@[simp] theorem opField_rrrWord (op : BitVec 4) (a b c : BitVec 3) : opField (rrrWord op a b c) = op := by
  apply BitVec.eq_of_getLsbD_eq
  intro i hi
  simp only [opField, bits, rrrWord, BitVec.getLsbD_extractLsb', BitVec.getLsbD_append]
  simp [hi, show ¬ (28 + i < 3) by omega, show ¬ (28 + i - 3 < 3) by omega, show ¬ (28 + i - 3 - 3 < 3) by omega,
    show ¬ (28 + i - 3 - 3 - 3 < 19) by omega, show 28 + i - 3 - 3 - 3 - 19 = i by omega]

@[simp] theorem aField_rrrWord (op : BitVec 4) (a b c : BitVec 3) : aField (rrrWord op a b c) = a := by
  apply BitVec.eq_of_getLsbD_eq
  intro i hi
  simp only [aField, bits, rrrWord, BitVec.getLsbD_extractLsb', BitVec.getLsbD_append]
  simp [hi, show ¬ (6 + i < 3) by omega, show ¬ (6 + i - 3 < 3) by omega, show 6 + i - 3 - 3 = i by omega]

@[simp] theorem bField_rrrWord (op : BitVec 4) (a b c : BitVec 3) : bField (rrrWord op a b c) = b := by
  apply BitVec.eq_of_getLsbD_eq
  intro i hi
  simp only [bField, bits, rrrWord, BitVec.getLsbD_extractLsb', BitVec.getLsbD_append]
  simp [hi, show ¬ (3 + i < 3) by omega, show 3 + i - 3 = i by omega]

@[simp] theorem cField_rrrWord (op : BitVec 4) (a b c : BitVec 3) : cField (rrrWord op a b c) = c := by
  apply BitVec.eq_of_getLsbD_eq
  intro i hi
  simp only [cField, bits, rrrWord, BitVec.getLsbD_extractLsb', BitVec.getLsbD_append]
  simp [hi]

@[simp] theorem opField_lcWord (a : BitVec 3) (imm : BitVec 25) : opField (lcWord a imm) = 13#4 := by
  apply BitVec.eq_of_getLsbD_eq
  intro i hi
  simp only [opField, bits, lcWord, BitVec.getLsbD_extractLsb', BitVec.getLsbD_append]
  simp [hi, show ¬ (28 + i < 25) by omega, show ¬ (28 + i - 25 < 3) by omega, show 28 + i - 25 - 3 = i by omega]

@[simp] theorem aLcField_lcWord (a : BitVec 3) (imm : BitVec 25) : aLcField (lcWord a imm) = a := by
  apply BitVec.eq_of_getLsbD_eq
  intro i hi
  simp only [aLcField, bits, lcWord, BitVec.getLsbD_extractLsb', BitVec.getLsbD_append]
  simp [hi, show ¬ (25 + i < 25) by omega, show 25 + i - 25 = i by omega]

@[simp] theorem immField_lcWord (a : BitVec 3) (imm : BitVec 25) : immField (lcWord a imm) = imm := by
  apply BitVec.eq_of_getLsbD_eq
  intro i hi
  simp only [immField, bits, lcWord, BitVec.getLsbD_extractLsb', BitVec.getLsbD_append]
  simp [hi]

/-- An immediate in range survives the cut to 25 bits and the zero-extension back. -/
theorem immInRange_roundtrip {imm : Word} (h : immInRange imm) : (imm.setWidth 25).setWidth 32 = imm := by
  apply BitVec.eq_of_toNat_eq
  simp only [BitVec.toNat_setWidth]
  rw [Nat.mod_eq_of_lt h]
  exact Nat.mod_eq_of_lt imm.isLt

/-- The decoder's immediate is in range (R64). -/
theorem immOperand_inRange (w : Word) : immInRange (immOperand w) := by
  have h := (immField w).isLt
  simp only [immInRange, immOperand, BitVec.toNat_setWidth]
  exact Nat.lt_of_le_of_lt (Nat.mod_le _ _) h

end Sys2Proof
end

