-- ==== Sys2Proof/Laws/PerInstr.lean ====
section
/-! SUPPORT. Statements for all instructions, one lemma per constructor. EncodeOpcode: the word the encoder writes for an
instruction carries that instruction's opcode in bits 31..28 (spec/30_encoding.md R61, R66, R69). -/

namespace Sys2Proof.Laws.EncodeOpcode

/-- Bits 31..28 of an instruction's canonical word are its opcode. -/
def Statement (i : Instr) : Prop := opField (encode i) = i.opcode

theorem cmov (a b c : Reg) : Statement (.cmov a b c) := opField_rrrWord _ _ _ _
theorem index (a b c : Reg) : Statement (.index a b c) := opField_rrrWord _ _ _ _
theorem amend (a b c : Reg) : Statement (.amend a b c) := opField_rrrWord _ _ _ _
theorem add (a b c : Reg) : Statement (.add a b c) := opField_rrrWord _ _ _ _
theorem mul (a b c : Reg) : Statement (.mul a b c) := opField_rrrWord _ _ _ _
theorem div (a b c : Reg) : Statement (.div a b c) := opField_rrrWord _ _ _ _
theorem nand (a b c : Reg) : Statement (.nand a b c) := opField_rrrWord _ _ _ _
theorem halt : Statement .halt := opField_rrrWord _ _ _ _
theorem alloc (b c : Reg) : Statement (.alloc b c) := opField_rrrWord _ _ _ _
theorem abandon (c : Reg) : Statement (.abandon c) := opField_rrrWord _ _ _ _
theorem out (c : Reg) : Statement (.out c) := opField_rrrWord _ _ _ _
theorem inp (c : Reg) : Statement (.inp c) := opField_rrrWord _ _ _ _
theorem loadprog (b c : Reg) : Statement (.loadprog b c) := opField_rrrWord _ _ _ _
theorem lc (a : Reg) (imm : Word) : Statement (.lc a imm) := opField_lcWord _ _
theorem illegal14 : Statement .illegal14 := opField_rrrWord _ _ _ _
theorem illegal15 : Statement .illegal15 := opField_rrrWord _ _ _ _

end Sys2Proof.Laws.EncodeOpcode
end

