-- ==== Sys2Proof/Tests/Slice0.lean ====
section
/-! SUPPORT. The model's own tests. Expected results are the spec's: the vectors of spec/95_test_vectors.md, whose
section each group names, and words written out from the encodings of spec/30_encoding.md. The theorems named witness_…
show, for each statement with hypotheses, a state and operands that meet them all. -/

namespace Sys2Proof.Tests

open Sys2Proof.Machine

/-! ## WellFormed: the smoke test (R64) -/

theorem test_largest_immediate_wellformed : (Instr.lc .r0 0x1FFFFFF#32).wf := by decide
theorem test_immediate_of_26_bits_illformed : ¬ (Instr.lc .r0 0x2000000#32).wf := by decide

/-! ## Decode: one word per constructor, written out bit by bit from R62, R63, R66; ignored bits set in some (R65) -/

theorem test_decode_cmov : decode 0b0000_1111111111111111111_010_001_001#32 = .cmov .r2 .r1 .r1 := by decide
theorem test_decode_index : decode 0b0001_0000000000000000000_101_001_100#32 = .index .r5 .r1 .r4 := by decide
theorem test_decode_amend : decode 0b0010_0000000000000000000_001_100_011#32 = .amend .r1 .r4 .r3 := by decide
theorem test_decode_add : decode 0b0011_0000000000000000000_001_000_001#32 = .add .r1 .r0 .r1 := by decide
theorem test_decode_mul : decode 0b0100_0000000000000000000_011_011_110#32 = .mul .r3 .r3 .r6 := by decide
theorem test_decode_div : decode 0b0101_1000000000000000001_000_001_010#32 = .div .r0 .r1 .r2 := by decide
theorem test_decode_nand : decode 0b0110_0000000000000000000_111_000_000#32 = .nand .r7 .r0 .r0 := by decide
theorem test_decode_halt : decode 0b0111_1111111111111111111_111_111_111#32 = .halt := by decide
theorem test_decode_alloc : decode 0b1000_0000000000000000000_111_101_010#32 = .alloc .r5 .r2 := by decide
theorem test_decode_abandon : decode 0b1001_0000000000000000000_110_011_001#32 = .abandon .r1 := by decide
theorem test_decode_out : decode 0b1010_0000000000000000000_000_000_101#32 = .out .r5 := by decide
theorem test_decode_in : decode 0b1011_0000000000000000000_000_000_011#32 = .inp .r3 := by decide
theorem test_decode_loadprog : decode 0b1100_0000000000000000000_111_101_000#32 = .loadprog .r5 .r0 := by decide
theorem test_decode_lc : decode 0b1101_110_1000000000000000000000001#32 = .lc .r6 0x1000001#32 := by decide
theorem test_decode_illegal14 : decode 0b1110_0000000000000000000000000111#32 = .illegal14 := by decide
theorem test_decode_illegal15 : decode 0b1111_0000000000000000000000000000#32 = .illegal15 := by decide
theorem test_decode_bytes : decodeBytes [0x30#8, 0x00#8, 0x00#8, 0x09#8, 0x70#8] = .ok (.add .r0 .r1 .r1, [0x70#8]) := by
  decide
theorem test_decode_bytes_truncated : decodeBytes [0x70#8, 0x00#8] = .error .truncated := by decide

/-- The canonical words of R69's examples. -/
theorem test_encode_canonical :
    encode .halt = 0x70000000#32 ∧ encode (.out .r0) = 0xA0000000#32 ∧ encode (.add .r0 .r1 .r1) = 0x30000009#32 ∧
    encode (.lc .r1 4#32) = 0xD2000004#32 := by decide

/-! ## Running one instruction -/

/-- A running state with the given registers, the one word at offset 0, and the given non-zero segments. -/
def oneWord (w : Word) (regs : Regs) (segs : List (Nat × Segment)) : State :=
  { State.reset with regs := regs, mem := ⟨Segment.ofWords [w], segs⟩ }

/-- The next state of one step satisfies a check. -/
def after (s : State) (p : State → Bool) : Bool :=
  match step s with
  | .next t => p t
  | .fault _ => false
  | .refused _ => false

/-- The step raises this fault with this ip in the record, and registers and memory stay. -/
def raises (s : State) (k : FaultKind) (ip : Word) : Bool :=
  after s fun t => decide (t.status = .faulted ∧ t.faultRecord = some ⟨k, ip⟩ ∧ t.regs = s.regs ∧ t.mem = s.mem)

/-- Segment 1 of the vectors: one word 0x58 at offset 0 of four. -/
def seg58 : Segment := ⟨4, [(0, 0x58#32)]⟩

/-! ### 95_test_vectors §2.2 to §2.4 -/

theorem test_cmov_false_keeps : after (oneWord 0x0000000A#32 ⟨9, 5, 0, 0, 0, 0, 0, 0⟩ []) (·.x .r0 = 9#32) := by decide
theorem test_cmov_any_nonzero_moves :
    after (oneWord 0x0000000A#32 ⟨9, 5, 0x80000000, 0, 0, 0, 0, 0⟩ []) (·.x .r0 = 5#32) := by decide
theorem test_add_wraps : after (oneWord 0x3000000A#32 ⟨0, 0xFFFFFFFF, 1, 0, 0, 0, 0, 0⟩ []) (·.x .r0 = 0#32) := by decide
theorem test_add_same_register :
    after (oneWord 0x300000DB#32 ⟨0, 0, 0, 0x80000001, 0, 0, 0, 0⟩ []) (·.x .r3 = 2#32) := by decide
theorem test_mul_keeps_low_bits :
    after (oneWord 0x4000000A#32 ⟨0, 0xDEADBEEF, 0x1000, 0, 0, 0, 0, 0⟩ []) (·.x .r0 = 0xDBEEF000#32) := by decide
theorem test_mul_all_ones :
    after (oneWord 0x4000000A#32 ⟨0, 0xFFFFFFFF, 0xFFFFFFFF, 0, 0, 0, 0, 0⟩ []) (·.x .r0 = 1#32) := by decide
theorem test_div_unsigned :
    after (oneWord 0x5000000A#32 ⟨7, 0x80000000, 0xFFFFFFFF, 0, 0, 0, 0, 0⟩ []) (·.x .r0 = 0#32) := by decide
theorem test_div_by_zero : raises (oneWord 0x5000000A#32 ⟨9, 3, 0, 0, 0, 0, 0, 0⟩ []) .divideByZero 1#32 := by decide
theorem test_nand_bitwise :
    after (oneWord 0x6000000A#32 ⟨0, 0xF0F0F0F0, 0xFF00FF00, 0, 0, 0, 0, 0⟩ []) (·.x .r0 = 0x0FFF0FFF#32) := by decide
theorem test_lc_other_registers_stay :
    after (oneWord 0xDE000001#32 ⟨5, 0, 0, 0, 0, 0, 0, 0⟩ []) (fun t => t.x .r7 = 1#32 && t.x .r0 = 5#32) := by decide

/-! ### 95_test_vectors §2.5 -/

theorem test_index_reads : after (oneWord 0x1000014C#32 ⟨0, 1, 0, 0, 0, 0, 0, 0⟩ [(1, seg58)]) (·.x .r5 = 0x58#32) := by
  decide
theorem test_index_liveness_first :
    raises (oneWord 0x1000014C#32 ⟨0, 2, 0, 0, 1000, 0, 0, 0⟩ []) .invalidSegment 1#32 := by decide
theorem test_amend_writes :
    after (oneWord 0x20000063#32 ⟨0, 1, 0, 0x58, 0, 0, 0, 0⟩ [(1, ⟨4, []⟩)]) (fun t => t.mem.segs = [(1, seg58)]) := by
  decide
theorem test_amend_out_of_bounds :
    raises (oneWord 0x20000063#32 ⟨0, 1, 0, 0x58, 4, 0, 0, 0⟩ [(1, ⟨4, []⟩)]) .segmentOffsetOutOfBounds 1#32 := by decide
theorem test_alloc_first_is_one :
    after (oneWord 0x8000000A#32 ⟨0, 0, 4, 0, 0, 0, 0, 0⟩ []) (fun t => t.x .r1 = 1#32 && t.mem.segs = [(1, ⟨4, []⟩)]) := by
  decide
theorem test_alloc_reuses_the_freed :
    after { oneWord 0x8000001A#32 ⟨0, 1, 2, 0, 0, 0, 0, 0⟩ [] with alloc := ⟨[1#32], 2, [], .reference⟩ } (·.x .r3 = 1#32) := by decide
theorem test_abandon_frees :
    after (oneWord 0x90000001#32 ⟨0, 1, 0, 0, 0, 0, 0, 0⟩ [(1, seg58)])
      (fun t => !t.mem.live 1#32 && t.x .r1 = 1#32) := by decide
theorem test_abandon_zero : raises (oneWord 0x90000001#32 ⟨0, 0, 0, 0, 0, 0, 0, 0⟩ []) .abandonSegmentZero 1#32 := by decide

/-! ### 95_test_vectors §2.6 -/

theorem test_halt : after (oneWord 0x70000000#32 ⟨0, 0, 0, 0, 0, 0, 0, 0⟩ [])
    (fun t => t.status = .halted && t.ip = 1#32) := by decide
theorem test_fetch_past_the_end :
    raises { oneWord 0x70000000#32 ⟨0, 0, 0, 0, 0, 0, 0, 0⟩ [] with ip := 1 } .instructionPointerOutOfBounds 1#32 := by
  decide
theorem test_illegal : raises (oneWord 0xF0000000#32 ⟨0, 0, 0, 0, 0, 0, 0, 0⟩ []) .illegalInstruction 1#32 := by decide
theorem test_illegal14_scenario_word :
    raises (oneWord 0xE0000007#32 ⟨0, 0, 0, 0, 0, 0, 0, 0⟩ []) .illegalInstruction 1#32 := by decide
theorem test_loadprog_jumps :
    after (oneWord 0xC0000003#32 ⟨0, 0, 0, 5, 0, 0, 0, 0⟩ []) (fun t => t.ip = 5#32 && t.status = .running) := by decide
theorem test_loadprog_copies :
    after (oneWord 0xC000002D#32 ⟨0, 0, 0, 0, 0, 1, 0, 0⟩ [(1, Segment.ofWords [0xA0000001#32, 0x70000000#32])])
      (fun t => t.mem.seg0 = Segment.ofWords [0xA0000001#32, 0x70000000#32] && t.ip = 1#32 && t.mem.live 1#32) := by decide

/-! ### 95_test_vectors §2.7 -/

theorem test_out_sends : after (oneWord 0xA0000000#32 ⟨0xFF, 0, 0, 0, 0, 0, 0, 0⟩ []) (·.host.output = [0xFF#8]) := by decide
theorem test_out_of_range :
    raises (oneWord 0xA0000000#32 ⟨0x100, 0, 0, 0, 0, 0, 0, 0⟩ []) .outputOutOfRange 1#32 := by decide

/-- The state about to run `in r3`, with one answer queued. -/
def inputState (a : ReadAnswer) : State :=
  { oneWord 0xB0000003#32 ⟨0, 0, 0, 7, 0, 0, 0, 0⟩ [] with host := { State.reset.host with input := ⟨[a], .always .eof⟩ } }

theorem test_in_byte : after (inputState (.byte 0x7A#8)) (·.x .r3 = 0x7A#32) := by decide
theorem test_in_eof_is_all_ones : after (inputState .eof) (·.x .r3 = 0xFFFFFFFF#32) := by decide
theorem test_in_error : raises (inputState .ioerr) .hostIOError 1#32 := by decide
theorem test_in_waits : (inputState .notYet).outcome = some .wait ∧
    after (inputState .notYet) (fun t => t.ip = 0#32 && t.x .r3 = 7#32 && t.status = .running) := by decide

/-! ### Boot and outcomes: 95_test_vectors §1.1, §1.7 -/

theorem test_boot_five_bytes : boot (.reference []) [0x70#8, 0, 0, 0, 0] matches .fault .invalidImageSize := by decide
theorem test_boot_empty : boot (.reference []) [] matches .fault .invalidImageSize := by decide
theorem test_boot_halt_program :
    (State.init (.reference []) (imageWords [0x70#8, 0, 0, 0])).outcome matches some (.halted _) := by decide
theorem test_cancelled : step { State.reset with host := { State.reset.host with cancelIn := some 0 } }
    matches .fault .cancelled := by decide
theorem test_terminal_takes_no_step : { State.reset with status := .halted }.outcome = none := by decide

/-! ### The host's interface: a table word is decoded and is what the next step runs after reset -/

theorem test_table_word : decodeTableWord 32 0x3000000A = some (.add .r0 .r1 .r2) := by decide
theorem test_fetch_word_runs : after (State.reset.withFetchWord 32 0xD2000004) (·.x .r1 = 4#32) := by decide

/-! ## Witnesses: the hypotheses of each statement can be met -/

/-- A running state that meets the invariant: two words of program, segment 1 live, identifier 2 freed. -/
def demo : State :=
  { oneWord 0xB0000003#32 ⟨0, 1, 5, 0x58, 0, 1, 0x41, 0x100⟩ [(1, seg58)] with
    mem := ⟨Segment.ofWords [0xB0000003#32, 0x70000000#32], [(1, seg58)]⟩, alloc := ⟨[2#32], 3, [], .reference⟩ }

theorem demo_inv : demo.Inv := by decide

theorem witness_DecodeOfEncodeIsIdentity : (Instr.lc .r7 0x1FFFFFF#32).wf := by decide

theorem witness_IgnoredBitsDoNotMatter :
    let w := 0x8000002A#32
    let w' := 0x8FFFFFEA#32
    w ≠ w' ∧ opField w = opField w' ∧ (opField w = 8#4 ∨ opField w = 12#4) ∧ bField w = bField w' ∧
    cField w = cField w' ∧ ¬ (opField w).toNat ≤ 6 ∧ opField w ≠ 13#4 ∧
    ¬ (opField w = 9#4 ∨ opField w = 10#4 ∨ opField w = 11#4) := by decide
theorem witness_IgnoredBitsDoNotMatter_abc :
    let w := 0x6000000A#32
    let w' := 0x6FFFFE0A#32
    w ≠ w' ∧ opField w = opField w' ∧ (opField w).toNat ≤ 6 ∧ aField w = aField w' ∧ bField w = bField w' ∧
    cField w = cField w' := by decide
theorem witness_IgnoredBitsDoNotMatter_c :
    let w := 0xB0000003#32
    let w' := 0xBFFFFFFB#32
    w ≠ w' ∧ opField w = opField w' ∧ opField w = 11#4 ∧ cField w = cField w' := by decide
theorem witness_IgnoredBitsDoNotMatter_lc :
    let w := 0xDFFFFFFF#32
    opField w = 13#4 ∧ aLcField w = 7#3 ∧ immField w = 0x1FFFFFF#25 := by decide

theorem witness_DecoderIsTheTotalFunction :
    opField 0x0FFFFFFF#32 = 0#4 ∧ opField 0x10000000#32 = 1#4 ∧ opField 0x20000000#32 = 2#4 ∧
    opField 0x30000000#32 = 3#4 ∧ opField 0x40000000#32 = 4#4 ∧ opField 0x50000000#32 = 5#4 ∧
    opField 0x60000000#32 = 6#4 ∧ opField 0x70000000#32 = 7#4 ∧ opField 0x80000000#32 = 8#4 ∧
    opField 0x90000000#32 = 9#4 ∧ opField 0xA0000000#32 = 10#4 ∧ opField 0xB0000000#32 = 11#4 ∧
    opField 0xC0000000#32 = 12#4 ∧ opField 0xD0000000#32 = 13#4 ∧ opField 0xE0000000#32 = 14#4 ∧
    opField 0xFFFFFFFF#32 = 15#4 := by decide

theorem witness_ImageIsBigEndian : [0x70#8, 0x00#8, 0x00#8, 0x01#8].length = 4 * 1 := by decide
theorem witness_BootSetsTheInitialState : [0x70#8, 0x00#8, 0x00#8, 0x01#8].length = 4 * 1 ∧ 0 < 1 ∧ 1 < 2 ^ 32 := by decide

theorem witness_AluComputesUnsignedModulo : (0xFFFFFFFF#32) ≠ 0#32 ∧ (AluOp.nand ≠ .div) ∧ 31 < 32 := by decide
theorem witness_DivideWritesTheQuotient : demo.x .r1 ≠ 0#32 := by decide
theorem witness_DivideByZeroFaults : demo.x .r0 = 0#32 := by decide
theorem witness_TwoNotAndsMoveARegister :
    ∃ t u, exec (.nand .r1 .r1 .r1) demo = .next t ∧ exec (.nand .r1 .r1 .r1) t = .next u := ⟨_, _, rfl, rfl⟩

theorem witness_ArrayIndexReadsTheWord :
    demo.mem.length? (demo.x .r1) = some 4#32 ∧ (demo.x .r0).toNat < (4#32).toNat := by decide
theorem witness_ArrayAmendWritesTheWord :
    demo.mem.length? (demo.x .r0) = some 2#32 ∧ (demo.x .r1).toNat < (2#32).toNat := by decide
theorem witness_AllocateCreatesAFreshZeroSegment :
    demo.mem.wf ∧ demo.host.nextOom = false ∧ ∃ id, id ≠ 0#32 ∧ demo.mem.live id = false :=
  ⟨by decide, by decide, 0xFFFFFFFF#32, by decide⟩
/-- The clause on an implementation's own policy: policy 5, in hidden state 9. -/
theorem witness_AllocateCreatesAFreshZeroSegment_own :
    let s := { demo with alloc := ⟨[], 1, [], .own 5 9⟩ }
    s.mem.wf ∧ s.host.nextOom = false ∧ (∃ id, id ≠ 0#32 ∧ s.mem.live id = false) ∧ s.alloc.picks = [] ∧
    s.alloc.policy = .own 5 9 := ⟨by decide, by decide, ⟨0xFFFFFFFF#32, by decide⟩, rfl, rfl⟩
theorem witness_ReferencePolicyReusesTheLastFreed :
    demo.host.nextOom = false ∧ demo.alloc.isReference ∧ demo.alloc.free = [2#32] ∧ demo.mem.fresh 2#32 = true := by
  decide
theorem witness_ReferencePolicyReusesTheLastFreed_counter :
    State.reset.host.nextOom = false ∧ State.reset.alloc.isReference ∧ State.reset.alloc.free = [] ∧
    State.reset.alloc.next < 4294967296 ∧ State.reset.mem.fresh (BitVec.ofNat 32 State.reset.alloc.next) = true := by decide
theorem witness_AbandonThenAllocateReuses :
    demo.alloc.isReference ∧ demo.x .r1 ≠ 0#32 ∧ demo.mem.live (demo.x .r1) = true ∧ demo.host.nextOom = false ∧
    ∃ t u, exec (.abandon .r1) demo = .next t ∧ exec (.alloc .r2 .r3) t = .next u := by
  obtain ⟨t, ht, -⟩ := exec_ends (.abandon .r1) demo
  obtain ⟨u, hu, -⟩ := exec_ends (.alloc .r2 .r3) t
  exact ⟨by decide, by decide, by decide, by decide, t, u, ht, hu⟩
theorem witness_AbandonFreesTheSegment : demo.x .r5 ≠ 0#32 ∧ demo.mem.live (demo.x .r5) = true := by decide

theorem witness_LoadProgramJumps : demo.x .r0 = 0#32 := by decide
theorem witness_LoadProgramInstallsACopy :
    demo.x .r1 ≠ 0#32 ∧ demo.mem.live (demo.x .r1) = true ∧ demo.host.nextOom = false := by decide
theorem witness_LoadedCopyIsIndependent :
    demo.x .r1 ≠ 0#32 ∧ demo.mem.live (demo.x .r1) = true ∧ demo.host.nextOom = false ∧
    ∃ t m m', exec (.loadprog .r1 .r0) demo = .next t ∧ t.mem.write (demo.x .r1) 3#32 9#32 = .ok m ∧
      t.mem.write 0#32 0#32 9#32 = .ok m' := ⟨by decide, by decide, by decide, _, _, _, rfl, rfl, rfl⟩
theorem witness_InstallReplacesSegmentZeroOnly : (3#32 : Word).toNat < seg58.len.toNat ∧ (1#32 : Word) ≠ 0#32 := by decide

theorem witness_OutputSendsTheByte : (demo.x .r6).toNat ≤ 255 ∧ demo.host.nextWrite = .ok := by decide
theorem witness_OutputAboveByteFaults : 255 < (demo.x .r7).toNat := by decide

/-- The demo with a host whose next write fails and whose next read is the given one. -/
def demoHost (a : ReadAnswer) (d : Bool) : State :=
  { demo with host := { demo.host with input := ⟨[a], .always .eof⟩, writes := ⟨[.ioerr d], .always .ok⟩ } }

theorem witness_FailedWriteFaults :
    ((demoHost .eof true).x .r6).toNat ≤ 255 ∧ (demoHost .eof true).host.nextWrite = .ioerr true ∧
    (demoHost .eof false).host.nextWrite = .ioerr false := by decide
theorem witness_InputWritesByteOrEof :
    (demoHost (.byte 255#8) true).host.nextRead = .byte 255#8 ∧ (demoHost .eof true).host.nextRead = .eof := by decide
theorem witness_InputWaitsWithoutChange :
    let s := demoHost .notYet true
    s.stepsOn ∧ s.ip.toNat < s.mem.seg0.len.toNat ∧ decode (s.mem.seg0.get s.ip) = .inp .r3 ∧
    s.host.nextRead = .notYet := by decide

theorem witness_StepRunsTheDecodedInstruction : demo.stepsOn ∧ demo.mem.read 0#32 demo.ip = .ok 0xB0000003#32 := by decide
theorem witness_FetchIncrementNeverWraps :
    let s := { demo with ip := 0xFFFFFFFE#32, mem := ⟨⟨0xFFFFFFFF#32, []⟩, []⟩ }
    s.mem.read 0#32 s.ip = .ok 0#32 := by decide
theorem witness_FetchOutOfBoundsFaults :
    let s := { demo with ip := 2#32 }
    s.stepsOn ∧ s.mem.length? 0#32 = some 2#32 ∧ (2#32).toNat ≤ s.ip.toNat := by decide
theorem witness_PlacedWordRunsNext : (0xFFFFFFFF : Nat) < 2 ^ 32 := by decide
theorem witness_NoStepAfterTheEnd :
    { demo with status := .halted }.status = .halted ∧ { demo with status := .faulted }.status = .faulted ∧
    demo.status = .running ∧
    { demo with host := { demo.host with cancelIn := some 0 } }.host.cancelIn = some 0 := by decide
theorem witness_StatusChangesOnlyAsStated : demo.Inv ∧ ∃ t, step demo = .next t := ⟨demo_inv, _, rfl⟩
theorem witness_StatusChangesOnlyAsStated_halt :
    ∃ t, step { demo with ip := 1#32 } = .next t ∧ t.status = .halted := ⟨_, rfl, rfl⟩
theorem witness_StatusChangesOnlyAsStated_fault :
    ∃ t, step { demo with ip := 2#32 } = .next t ∧ t.status = .faulted := ⟨_, rfl, rfl⟩
theorem witness_EveryRunningStateHasAnOutcome :
    (∃ t, { demo with ip := 1#32 }.outcome = some (.halted t)) ∧
    (∃ t r, { demo with ip := 2#32 }.outcome = some (.faulted t r)) ∧ (∃ t, demo.outcome = some (.next t)) ∧
    (demoHost .notYet true).outcome = some .wait ∧ { demo with status := .halted }.outcome = none ∧
    ∃ u, { demo with host := { demo.host with cancelIn := some 0 } }.outcome = some (.cancelled u) :=
  ⟨⟨_, rfl⟩, ⟨_, _, rfl⟩, ⟨_, rfl⟩, rfl, rfl, _, rfl⟩

theorem witness_FaultsFollowThePriorityTable :
    demo.mem.wf ∧ demo.status = .running ∧ demo.faultRecord = none := by decide
theorem witness_FaultingInstructionCommitsNothing :
    demo.status = .running ∧ ∃ t, exec .illegal15 demo = .next t ∧ t.status = .faulted := ⟨rfl, _, rfl, rfl⟩
theorem witness_OnlyTheWritePortRegisterChanges :
    (∃ t, exec (.add .r1 .r2 .r3) demo = .next t) ∧ (controls (.add .r1 .r2 .r3)).wa ≠ some .r2 := ⟨⟨_, rfl⟩, by decide⟩
theorem witness_OnlyLoadProgramRedirects : ∃ t, exec (.loadprog .r0 .r2) demo = .next t ∧ t.ip ≠ demo.ip :=
  ⟨_, rfl, by decide⟩
theorem witness_OnlyTheNamedUnitsActOutside :
    (∃ t, exec (.index .r4 .r1 .r0) demo = .next t) ∧ (controls (.index .r4 .r1 .r0)).unit.changesMemory = false ∧
    (controls (.index .r4 .r1 .r0)).unit.callsHost = false := ⟨⟨_, rfl⟩, rfl, rfl⟩
theorem witness_LengthsAreImmutable :
    ∃ t, exec (.loadprog .r1 .r0) demo = .next t ∧ demo.mem.length? 0#32 = some 2#32 ∧ t.mem.length? 0#32 = some 4#32 :=
  ⟨_, rfl, rfl, rfl⟩
theorem witness_NextFetchSeesTheStore :
    let s := { demo with ip := 1#32 }
    s.stepsOn ∧ s.x .r0 = 0#32 ∧ (s.x .r1).toNat < s.mem.seg0.len.toNat ∧ s.ip = s.x .r1 ∧
    ∃ t u : State, exec (.amend .r0 .r1 .r2) s = .next t ∧
      u.stepsOn ∧ u.ip = s.x .r1 ∧ u.mem.read 0#32 (s.x .r1) = t.mem.read 0#32 (s.x .r1) := by
  refine ⟨by decide, by decide, by decide, by decide, ?_⟩
  exact ⟨_, _, rfl, by decide, by decide, rfl⟩
theorem witness_NextFetchReadsTheNewProgram :
    demo.stepsOn ∧ demo.mem.live (demo.x .r1) = true ∧ (demo.x .r1 ≠ 0#32 → demo.host.nextOom = false) ∧
    demo.mem.read (demo.x .r1) (demo.x .r0) = .ok 0x58#32 ∧
    demo.mem.read (demo.x .r1) (demo.x .r6) = .error .segmentOffsetOutOfBounds ∧
    (∃ t, exec (.loadprog .r1 .r0) demo = .next t) ∧ ∃ t, exec (.loadprog .r1 .r6) demo = .next t :=
  ⟨by decide, by decide, fun _ => rfl, by decide, by decide, ⟨_, rfl⟩, _, rfl⟩
theorem witness_BenignHostCausesNoHostFault :
    demo.Inv ∧ demo.host.benign ∧ (∃ id, id ≠ 0#32 ∧ demo.mem.live id = false) ∧ ∃ t, step demo = .next t :=
  ⟨demo_inv, ⟨⟨nofun, rfl⟩, ⟨nofun, nofun⟩, ⟨nofun, rfl⟩⟩, ⟨2#32, by decide⟩, _, rfl⟩
theorem witness_HostIsInvisibleWithoutACall :
    demo.sameCore (demoHost .ioerr false) ∧ (controls (.add .r1 .r2 .r3)).unit.callsHost = false ∧
    ((controls (.add .r1 .r2 .r3)).unit = .allocatorAlloc ∨ (controls (.add .r1 .r2 .r3)).unit = .allocatorInstall →
      demo.host.nextOom = (demoHost .ioerr false).host.nextOom) ∧
    ∃ t t', exec (.add .r1 .r2 .r3) demo = .next t ∧ exec (.add .r1 .r2 .r3) (demoHost .ioerr false) = .next t' :=
  ⟨⟨rfl, rfl, rfl, rfl, rfl, rfl⟩, rfl, fun _ => rfl, _, _, rfl, rfl⟩

theorem witness_CanonicalStoresThatReadAlikeAreEqual : demo.mem.wf ∧ demo.mem.readsAs demo.mem :=
  ⟨by decide, Memory.readsAs_refl _⟩
theorem witness_InitialStatesMeetTheInvariant :
    [0x70000000#32].length < 2 ^ 32 ∧ (Environment.reference []).picks = [] ∧
    (Environment.reference []).policy = .reference := by decide
theorem witness_ExitCodeZeroIsNormalHalt :
    Ended.invalidImage.fault? = some .invalidImageSize ∧ (runImage 1 (.reference []) [0x70#8]).2 = some .invalidImage := by
  decide
theorem witness_StepKeepsTheInvariant : demo.Inv ∧ ∃ t, step demo = .next t := ⟨demo_inv, _, rfl⟩

theorem demo_referencePolicy : demo.ReferencePolicy := by
  refine ⟨by decide, fun k hk => ?_, fun k hk => ⟨fun h => ?_, fun h => ?_⟩⟩
  · have hk2 : k = 2#32 := by simpa [demo] using hk
    subst hk2; exact by decide
  · have h3 : k.toNat < 3 := h
    have hpos := toNat_pos_of_ne_zero hk
    have : k = 1#32 ∨ k = 2#32 := by bv_omega
    rcases this with rfl | rfl
    · exact .inl rfl
    · exact .inr (by decide)
  · have h3 : 3 ≤ k.toNat := h
    have hne : k.toNat ≠ 1 := by omega
    simp [Memory.live, Memory.find, hk, demo, assocGet, hne]

theorem witness_StepKeepsTheReferencePolicy : demo.Inv ∧ demo.ReferencePolicy ∧ ∃ t, step demo = .next t :=
  ⟨demo_inv, demo_referencePolicy, _, rfl⟩
theorem witness_ReferencePolicyExhaustion : demo.Inv ∧ demo.ReferencePolicy := ⟨demo_inv, demo_referencePolicy⟩

end Sys2Proof.Tests
end

/-! SUPPORT. What a step answers in every state, and the outcome of R10 it amounts to (spec/00_scope.md R10;
spec/42_dispatch_and_control.md R83, R90; spec/43_host_io.md R95; spec/60_exceptions.md R107). -/

namespace Sys2Proof.Machine

/-! ## The step at each boundary -/

theorem exec_next (i : Instr) (s : State) : ∃ t, exec i s = .next t :=
  let ⟨t, e, _⟩ := exec_ends i s
  ⟨t, e⟩

theorem step_of_stop {s : State} {f : Fault} (h : s.boundary = .stop f) : step s = .fault f := by
  simp [step, h]

theorem step_of_fetch_error {s : State} {k : FaultKind} (hb : s.boundary = .go) (hf : s.fetchWord = .error k) :
    step s = .next (s.passBoundary.raise k) := by
  have hp : s.passBoundary.fetchWord = .error k := hf
  simp [step, hb, hp]

theorem step_of_fetch_ok {s : State} {w : Word} (hb : s.boundary = .go) (hf : s.fetchWord = .ok w) :
    step s = exec (decode w) s.passBoundary.advance := by
  have hp : s.passBoundary.fetchWord = .ok w := hf
  simp [step, hb, hp]

theorem step_of_go {s : State} (hb : s.boundary = .go) : ∃ t, step s = .next t := by
  cases hf : s.fetchWord with
  | error k => exact ⟨_, step_of_fetch_error hb hf⟩
  | ok w => rw [step_of_fetch_ok hb hf]; exact exec_next _ _

/-- A step answers a fault of the model in a terminal status and at a cancellation, and a next state otherwise; it never
refuses (R83, R90, R107). -/
theorem step_answers (s : State) :
    (s.status = .halted ∧ step s = .fault .engineHalted) ∨
    (s.status = .faulted ∧ step s = .fault .engineFaulted) ∨
    (s.status = .running ∧ s.host.cancelIn = some 0 ∧ step s = .fault .cancelled) ∨
    (s.stepsOn ∧ ∃ t, step s = .next t) := by
  match hs : s.status with
  | .halted => exact .inl ⟨rfl, step_of_stop (by simp [State.boundary, hs])⟩
  | .faulted => exact .inr (.inl ⟨rfl, step_of_stop (by simp [State.boundary, hs])⟩)
  | .running =>
    by_cases hc : s.host.cancelIn = some 0
    · exact .inr (.inr (.inl ⟨rfl, hc, step_of_stop (by simp [State.boundary, hs, hc])⟩))
    · exact .inr (.inr (.inr ⟨⟨hs, hc⟩, step_of_go (s.boundary_go_iff.2 ⟨hs, hc⟩)⟩))

/-! ## The status and the record a step leaves -/

/-- An instruction keeps the status and the record, or it is Halt, or it ends in a raise with the record (kind, ip) (R90,
R97, R99). -/
theorem State.Ends.status_cases {s t : State} {i : Instr} (h : s.Ends i t) :
    (i ≠ .halt ∧ t.status = s.status ∧ t.faultRecord = s.faultRecord) ∨
    (i = .halt ∧ t.status = .halted ∧ t.faultRecord = s.faultRecord) ∨
    (i ≠ .halt ∧ t.status = .faulted ∧ ∃ k, t.faultRecord = some ⟨k, s.ip⟩) := by
  cases h <;> simp

/-- A step that leaves status Faulted leaves a fault record (R19, R90). -/
theorem step_faulted_record {s t : State} (h : step s = .next t) (ht : t.status = .faulted) :
    ∃ r, t.faultRecord = some r := by
  obtain ⟨hr, -, ⟨-, rfl⟩ | ⟨-, he⟩⟩ := step_cases h
  · exact ⟨_, rfl⟩
  · rcases (exec_inv he).status_cases with ⟨-, hkeep, -⟩ | ⟨-, hhalt, -⟩ | ⟨-, -, k, hk⟩
    · simp [hkeep, hr] at ht
    · simp [hhalt] at ht
    · exact ⟨_, hk⟩

/-! ## Wait -/

/-- The fetch reads the word of segment 0 at ip (R83). -/
theorem State.fetchWord_eq_ok_iff (s : State) (w : Word) :
    s.fetchWord = .ok w ↔ s.mem.read 0#32 s.ip = .ok w := by
  rcases s.fetchWord_cases with ⟨hb, hf⟩ | ⟨hb, hf⟩ <;> simp [hf, Memory.read, hb]

/-- A state waits exactly where an Input is fetched that the host has not answered (R95). -/
theorem State.waits_iff (s : State) :
    s.waits = true ↔
      s.stepsOn ∧ (∃ w c, s.mem.read 0#32 s.ip = .ok w ∧ decode w = .inp c) ∧ s.host.nextRead = .notYet := by
  simp only [State.stepsOn, ← s.boundary_go_iff, ← s.fetchWord_eq_ok_iff]
  unfold State.waits
  cases s.boundary with
  | stop f => simp
  | go =>
    cases s.fetchWord with
    | error k => simp
    | ok w => cases hd : decode w <;> simp [hd]

/-- A step that waits leaves status Running (R90, R95). -/
theorem State.status_of_waits {s t : State} (hw : s.waits = true) (h : step s = .next t) : t.status = .running := by
  obtain ⟨hon, ⟨w, c, hr, hd⟩, hn⟩ := s.waits_iff.1 hw
  rw [step_of_fetch_ok (s.boundary_go_iff.2 hon) ((s.fetchWord_eq_ok_iff w).2 hr), hd] at h
  cases exec_inv h with
  | inWait => exact hon.1
  | inByte _ _ he => exact absurd (hn.symm.trans he) nofun
  | inEof _ he => exact absurd (hn.symm.trans he) nofun
  | inError _ he => exact absurd (hn.symm.trans he) nofun

/-! ## Every way a step can conclude, in one relation -/

/-- What the outcome of a step taken in s can be: one constructor per outcome of R10, and one for the terminal statuses,
which have none. -/
inductive State.Concludes (s : State) : Option StepOutcome → Prop where
  | terminal (f) (hs : s.status ≠ .running) (he : step s = .fault f) : s.Concludes none
  | cancelled (hs : s.status = .running) (hc : s.host.cancelIn = some 0) (he : step s = .fault .cancelled) :
    s.Concludes (some (.cancelled s))
  | wait (t) (hon : s.stepsOn) (hw : s.waits = true) (he : step s = .next t) (ht : t.status = .running) :
    s.Concludes (some .wait)
  | next (t) (hon : s.stepsOn) (hw : s.waits = false) (he : step s = .next t) (ht : t.status = .running) :
    s.Concludes (some (.next t))
  | halted (t) (hon : s.stepsOn) (hw : s.waits = false) (he : step s = .next t) (ht : t.status = .halted) :
    s.Concludes (some (.halted t))
  | faulted (t r) (hon : s.stepsOn) (hw : s.waits = false) (he : step s = .next t) (ht : t.status = .faulted)
    (hr : t.faultRecord = some r) : s.Concludes (some (.faulted t r))

/-- The outcome of every state is one of these. -/
theorem State.outcome_concludes (s : State) : s.Concludes s.outcome := by
  unfold State.outcome
  rcases step_answers s with ⟨hs, he⟩ | ⟨hs, he⟩ | ⟨hs, hc, he⟩ | ⟨hon, t, he⟩
  · simpa only [he] using .terminal _ (by simp [hs]) he
  · simpa only [he] using .terminal _ (by simp [hs]) he
  · simpa only [he] using .cancelled hs hc he
  · simp only [he]
    cases hw : s.waits with
    | true => exact .wait t hon hw he (s.status_of_waits hw he)
    | false =>
      cases ht : t.status with
      | running => exact .next t hon hw he ht
      | halted => exact .halted t hon hw he ht
      | faulted =>
        obtain ⟨r, hr⟩ := step_faulted_record he ht
        simpa [hr] using .faulted t r hon hw he ht hr

/-- Settles O44: the outcome is one of those `State.Concludes` lists, and under each the six clauses are read off from
what its constructor says of the step. -/
theorem everyRunningStateHasAnOutcome : Obligations.EveryRunningStateHasAnOutcome := by
  intro s
  rw [← s.waits_iff]
  have h := s.outcome_concludes
  generalize s.outcome = o at h ⊢
  cases h with
  | terminal f hs he =>
    have hw : ¬ s.waits = true := fun h => hs (s.waits_iff.1 h).1.1
    grind
  | cancelled hs hc he =>
    have hw : ¬ s.waits = true := fun h => (s.waits_iff.1 h).1.2 hc
    grind
  | wait t hon hw he ht => grind
  | next t hon hw he ht => grind
  | halted t hon hw he ht => grind
  | faulted t r hon hw he ht hr => grind

end Sys2Proof.Machine

/-! SUPPORT. The exit code, and when a run ends before it begins (spec/00_scope.md R4; spec/70_reset_and_hazards.md R114;
spec/92_eei_decisions.md D18). -/

namespace Sys2Proof.Machine

theorem faultExitCode_ne_zero : Config.faultExitCode ≠ 0 := Nat.succ_ne_zero _

theorem Ended.exitCode_eq_zero_iff (e : Ended) : e.exitCode = some 0 ↔ e = .halted := by
  cases e <;> simp [Ended.exitCode, faultExitCode_ne_zero]

theorem Ended.exitCode_of_fault {e : Ended} {k : FaultKind} (h : e.fault? = some k) :
    e.exitCode = some Config.faultExitCode := by
  cases e with
  | halted => cases h
  | cancelled => cases h
  | faulted r => rfl
  | invalidImage => rfl

/-- A run that has a state to start from never ends as an invalid image. -/
theorem runFor_ne_invalidImage (n : Nat) (s : State) : (runFor n s).2 ≠ some .invalidImage := by
  induction n generalizing s with
  | zero => exact nofun
  | succ n ih =>
    simp only [runFor]
    have h := s.outcome_concludes
    generalize s.outcome = o at h ⊢
    cases h with
    | terminal => exact nofun
    | cancelled => exact nofun
    | wait t _ _ he => simpa only [he] using ih t
    | next t => exact ih t
    | halted => exact nofun
    | faulted => exact nofun

/-- Boot ends in a fault exactly for the images of R114. -/
theorem boot_cases (e : Environment) (image : List Byte) :
    ((image.length = 0 ∨ image.length % 4 ≠ 0) ∧ boot e image = .fault .invalidImageSize) ∨
    (¬ (image.length = 0 ∨ image.length % 4 ≠ 0) ∧
      (boot e image = .refused .imageTooLarge ∨ boot e image = .next (State.init e (imageWords image)))) := by
  unfold boot
  by_cases hbad : image.length = 0 ∨ image.length % 4 ≠ 0
  · exact .inl ⟨hbad, if_pos hbad⟩
  · rw [if_neg hbad]
    exact .inr ⟨hbad, ite_eq_or_eq _ _ _⟩

theorem runImage_invalidImage_iff (n : Nat) (e : Environment) (image : List Byte) :
    (runImage n e image).2 = some .invalidImage ↔ image.length = 0 ∨ image.length % 4 ≠ 0 := by
  unfold runImage
  rcases boot_cases e image with ⟨hbad, hb⟩ | ⟨hgood, hb | hb⟩
  · simp only [hb, hbad]
  · simp only [hb, hgood, reduceCtorEq]
  · simp only [hb, hgood, runFor_ne_invalidImage]

/-- Settles O55: the two parts on the code are cases on how a run ended; the last holds because boot alone ends a run as an
invalid image. -/
theorem exitCodeZeroIsNormalHalt : Obligations.ExitCodeZeroIsNormalHalt :=
  ⟨Ended.exitCode_eq_zero_iff, fun _ _ h => ⟨_, Ended.exitCode_of_fault h, faultExitCode_ne_zero⟩, fun _ => rfl, rfl,
    runImage_invalidImage_iff⟩

end Sys2Proof.Machine

/-! SUPPORT. What one instruction and one step do to the storage, the fault record, the registers and the lengths, and
that they keep the invariant (spec/10_state.md R12 to R19, R29, R31; spec/20_memory.md R33, R40, R52;
spec/60_exceptions.md R99). -/

namespace Sys2Proof.Machine

/-! ## The invariant along a step -/

/-- An instruction keeps memory in canonical form and the allocator in agreement with it: Array-Amend, Allocate, Abandon
and Load-Program act on them by one operation each, nothing else does (R33, R35, R40, R52). -/
theorem State.Ends.storage_wf {s t : State} {i : Instr} (h : s.Ends i t) (hm : s.mem.wf) (ha : s.alloc.wf s.mem) :
    t.mem.wf ∧ t.alloc.wf t.mem := by
  cases h with
  | amend a b c m hw => exact ⟨Memory.write_wf hm hw, AllocState.write_wf ha hw⟩
  | alloc b c k => exact ⟨Memory.create_wf k _ hm, AllocState.update_wf _ ha⟩
  | abandon c m _ _ hfree => exact ⟨Memory.free_wf hm hfree, AllocState.release_wf ha hfree⟩
  | load b c g _ hf => exact ⟨Memory.install_wf hm (Memory.find_wf hm hf), AllocState.install_wf g ha⟩
  | _ => exact ⟨hm, ha⟩

/-- A raise of any fault but InvalidImageSize leaves a record that agrees with the status (R19, R99). -/
theorem State.recordAgrees_raise (s : State) {k : FaultKind} (hk : k ≠ .invalidImageSize) :
    (s.raise k).recordAgrees := by
  simp [State.recordAgrees, hk]

/-- Without a record the record agrees with every status but Faulted (R19). -/
theorem State.recordAgrees_of_none {s : State} (hs : s.status ≠ .faulted) (hr : s.faultRecord = none) :
    s.recordAgrees := by
  simp [State.recordAgrees, hs, hr]

/-- In status Running no fault is recorded (R19). -/
theorem State.recordAgrees.none_of_running {s : State} (h : s.recordAgrees) (hs : s.status = .running) :
    s.faultRecord = none := by
  simpa [hs] using h.1

/-- An instruction ends in a raise, of a fault other than InvalidImageSize, or it leaves the record as it was and no
status Faulted where there was none (R90, R97, R98). -/
theorem State.Ends.raise_or_keeps_record {s t : State} {i : Instr} (h : s.Ends i t) (hs : s.status ≠ .faulted) :
    (∃ u k, t = State.raise u k ∧ k ≠ .invalidImageSize) ∨ (t.status ≠ .faulted ∧ t.faultRecord = s.faultRecord) := by
  cases h with
  | indexDead | indexOut | amendDead | amendOut | divZero | allocRefused | abandonZero | abandonDead | outRange
  | outError | inError | loadDead | loadRefused | illegal14 | illegal15 => exact .inl ⟨_, _, rfl, nofun⟩
  | halt => exact .inr ⟨nofun, rfl⟩
  | _ => exact .inr ⟨hs, rfl⟩

/-- An instruction executed in status Running with no record leaves a record that agrees with the status (R19, R99). -/
theorem State.Ends.recordAgrees {s t : State} {i : Instr} (h : s.Ends i t) (hs : s.status = .running)
    (hr : s.faultRecord = none) : t.recordAgrees := by
  rcases h.raise_or_keeps_record (by simp [hs]) with ⟨u, k, rfl, hk⟩ | ⟨ht, hkeep⟩
  · exact u.recordAgrees_raise hk
  · exact State.recordAgrees_of_none ht (hkeep.trans hr)

/-- Settles O58: a fetch fault is a raise and touches no storage; an executed instruction keeps the storage's part by
`State.Ends.storage_wf` and the record's part by `State.Ends.recordAgrees`. -/
theorem stepKeepsTheInvariant : Obligations.StepKeepsTheInvariant := by
  rintro s t ⟨hm, ha, hrec⟩ h
  obtain ⟨hrun, -, ⟨-, rfl⟩ | ⟨-, he⟩⟩ := step_cases h
  · exact ⟨hm, ha, s.passBoundary.recordAgrees_raise nofun⟩
  · have hends := exec_inv he
    obtain ⟨hm', ha'⟩ := hends.storage_wf hm ha
    exact ⟨hm', ha', hends.recordAgrees hrun (hrec.none_of_running hrun)⟩

/-! ## The reference policy along a step -/

/-- Where liveness is unchanged, a new store keeps the reference policy's reading. -/
theorem State.ReferencePolicy.withMem {s : State} {m : Memory} (h : s.ReferencePolicy)
    (hl : ∀ k, k ≠ 0#32 → m.live k = s.mem.live k) : (s.withMem m).ReferencePolicy := by
  obtain ⟨hr, hfree, hnext⟩ := h
  refine ⟨hr, hfree, fun k hk => ?_⟩
  simp only [State.withMem_mem, State.withMem_alloc, hl k hk]
  exact hnext k hk

/-- The counter's own value names no live segment, while it is an identifier (R52). -/
theorem State.ReferencePolicy.assocGet_next {s : State} (h : s.ReferencePolicy) (h1 : 1 ≤ s.alloc.next)
    (h2 : s.alloc.next < 2 ^ 32) : assocGet s.alloc.next s.mem.segs = none := by
  obtain ⟨-, -, hnext⟩ := h
  have hto : (BitVec.ofNat 32 s.alloc.next).toNat = s.alloc.next :=
    (BitVec.toNat_ofNat _ 32).trans (Nat.mod_eq_of_lt h2)
  have h0 : BitVec.ofNat 32 s.alloc.next ≠ 0#32 := fun e => by simp [e] at hto; omega
  simpa [Memory.live, Memory.find, h0, hto] using (hnext _ h0).2 hto.ge

/-- Under the reference policy Alloc issues an identifier of the free list, and the counter stays, or it issues the
counter's own value, and the counter moves on (R52). -/
theorem State.ReferencePolicy.choose_cases {s : State} {k : Word} (h : s.ReferencePolicy) (h1 : 1 ≤ s.alloc.next)
    (hc : s.alloc.choose s.mem = some k) :
    (k ∈ s.alloc.free ∧ (s.alloc.update k).next = s.alloc.next) ∨
    (k ∉ s.alloc.free ∧ k.toNat = s.alloc.next ∧ (s.alloc.update k).next = s.alloc.next + 1) := by
  by_cases hmem : k ∈ s.alloc.free
  · exact .inl ⟨hmem, by simp [AllocState.update, hmem]⟩
  · obtain ⟨h0, hdead⟩ := AllocState.choose_fresh hc
    have hge : s.alloc.next ≤ k.toNat := by
      by_contra hlt
      rcases (h.2.2 k h0).1 (by omega) with hl | hf
      · simp [hdead] at hl
      · exact hmem hf
    have hlow : lowestAbsent 1 s.mem.segs ≤ s.alloc.next := by
      by_contra hlt
      have hkey := assocGet_of_lt_lowestAbsent (l := s.mem.segs) h1 (by omega)
      simp [h.assocGet_next h1 (by omega)] at hkey
    have hle : k.toNat ≤ s.alloc.next := by
      have hcand : k ∈ s.alloc.candidates s.mem := List.mem_of_find?_eq_some hc
      rw [AllocState.candidates_reference h.1] at hcand
      simp only [List.mem_append, hmem, List.mem_cons, List.not_mem_nil, or_false, false_or] at hcand
      rcases hcand with rfl | rfl
      · exact Nat.mod_le _ _
      · exact (Nat.mod_le _ _).trans hlow
    have heq : k.toNat = s.alloc.next := by omega
    exact .inr ⟨hmem, heq, by simp [AllocState.update, hmem, heq]⟩

/-- Alloc keeps the reference policy's reading (R40, R52). -/
theorem State.ReferencePolicy.create {s : State} {k : Word} (n : Word) (h : s.ReferencePolicy)
    (h1 : 1 ≤ s.alloc.next) (hc : s.alloc.choose s.mem = some k) :
    ((s.withMem (s.mem.create k n)).withAlloc (s.alloc.update k)).ReferencePolicy := by
  have hcases := h.choose_cases h1 hc
  obtain ⟨hr, hfree, hnext⟩ := h
  have hk : k.toNat < (s.alloc.update k).next := by
    rcases hcases with ⟨hmem, e⟩ | ⟨-, hk, e⟩
    · rw [e]; exact hfree k hmem
    · omega
  have hmono : s.alloc.next ≤ (s.alloc.update k).next := by omega
  refine ⟨AllocState.isReference_update hr k, fun j hj => ?_, fun j hj0 => ?_⟩
  · exact (hfree j (List.mem_of_mem_erase hj)).trans_le hmono
  · simp only [State.withMem_mem, State.withAlloc_alloc, State.withAlloc_mem, Memory.live_create]
    by_cases hjk : j = k
    · subst hjk
      exact ⟨fun _ => .inl (by simp), fun hge => by omega⟩
    · have hne := toNat_ne_of_ne hjk
      obtain ⟨hbelow, habove⟩ := hnext j hj0
      simp only [hjk, decide_false, Bool.false_or]
      exact ⟨fun hlt => (hbelow (by omega)).imp_right (List.mem_erase_of_ne hjk).2, fun hge => habove (by omega)⟩

/-- Free keeps the reference policy's reading (R41, R52). -/
theorem State.ReferencePolicy.free {s : State} {m : Memory} {id : Word} (h : s.ReferencePolicy)
    (hm : s.mem.free id = .ok m) : ((s.withMem m).withAlloc (s.alloc.release id)).ReferencePolicy := by
  obtain ⟨hr, hfree, hnext⟩ := h
  obtain ⟨h0, hlive, -⟩ := Memory.free_ok hm
  have hid : id.toNat < s.alloc.next := by
    by_contra hge
    simp [(hnext id h0).2 (by omega)] at hlive
  refine ⟨AllocState.isReference_release hr id, fun j hj => ?_, fun j hj0 => ?_⟩
  · rcases List.mem_cons.1 hj with rfl | hj
    · exact hid
    · exact hfree j hj
  · obtain ⟨hbelow, habove⟩ := hnext j hj0
    simp only [State.withMem_mem, State.withAlloc_alloc, State.withAlloc_mem, Memory.live_free hm]
    refine ⟨fun hlt => ?_, fun hge => by simp [habove hge]⟩
    by_cases hjid : j = id
    · exact .inr (hjid ▸ List.mem_cons_self)
    · simpa [hjid, AllocState.release] using hbelow hlt

/-- An instruction keeps the reference policy's reading (R52): it moves by Allocate and Abandon, and the writes of
Array-Amend and Load-Program leave liveness as it was. -/
theorem State.Ends.referencePolicy {s t : State} {i : Instr} (h : s.Ends i t) (h1 : 1 ≤ s.alloc.next)
    (hs : s.ReferencePolicy) : t.ReferencePolicy := by
  cases h with
  | amend a b c m hw => exact hs.withMem fun k _ => Memory.live_write k hw
  | alloc b c k _ hc => exact hs.create _ h1 hc
  | abandon c m _ _ hm => exact hs.free hm
  | load b c g => exact hs.withMem fun k hk => by simp [Memory.live, Memory.find_install, hk]
  | _ => exact hs

/-- Settles O59: a fetch fault touches no storage, and an executed instruction keeps the reading by
`State.Ends.referencePolicy`. -/
theorem stepKeepsTheReferencePolicy : Obligations.StepKeepsTheReferencePolicy := by
  rintro s t ⟨-, ⟨-, -, h1, -⟩, -⟩ hs h
  obtain ⟨-, -, ⟨-, rfl⟩ | ⟨-, he⟩⟩ := step_cases h
  · exact hs
  · exact (exec_inv he).referencePolicy h1 hs

/-! ## The initial states -/

/-- A state in which nothing has happened yet: no non-zero segment, no identifier issued or freed, status Running and no
record (R31). -/
def State.Untouched (s : State) : Prop :=
  s.mem.segs = [] ∧ s.alloc.free = [] ∧ s.alloc.next = 1 ∧ s.status = .running ∧ s.faultRecord = none

theorem untouched_reset : State.reset.Untouched := ⟨rfl, rfl, rfl, rfl, rfl⟩

theorem untouched_init (e : Environment) (ws : List Word) : (State.init e ws).Untouched := ⟨rfl, rfl, rfl, rfl, rfl⟩

/-- Such a state meets the invariant, if its memory is in canonical form. -/
theorem State.Untouched.inv {s : State} (h : s.Untouched) (hm : s.mem.wf) : s.Inv := by
  obtain ⟨-, hfree, hnext, hrun, hrec⟩ := h
  exact ⟨hm, by simp [AllocState.wf, hfree, hnext], State.recordAgrees_of_none (by simp [hrun]) hrec⟩

/-- Such a state meets the reference policy's reading, if that policy is in force: the counter is 1, nothing lies below
it and nothing non-zero is live. -/
theorem State.Untouched.referencePolicy {s : State} (h : s.Untouched) (hr : s.alloc.isReference) :
    s.ReferencePolicy := by
  obtain ⟨hsegs, hfree, hnext, -⟩ := h
  refine ⟨hr, by simp [hfree], fun k hk => ⟨fun hlt => ?_, fun _ => ?_⟩⟩
  · have := toNat_pos_of_ne_zero hk
    omega
  · simp [Memory.live, Memory.find, hk, hsegs, assocGet]

/-- Settles O57: reset and VM init leave an untouched state, whose memory is in canonical form. -/
theorem initialStatesMeetTheInvariant : Obligations.InitialStatesMeetTheInvariant :=
  ⟨untouched_reset.inv reset_mem_wf, untouched_reset.referencePolicy ⟨rfl, rfl⟩, fun e ws hlen =>
    ⟨(untouched_init e ws).inv (install_ofWords_wf reset_mem_wf hlen), fun hpicks hpolicy =>
      (untouched_init e ws).referencePolicy ⟨hpicks, hpolicy⟩⟩⟩

/-! ## Registers and lengths -/

/-- An instruction writes the one register that R29's table names for the write port, or no register (R12, R24). -/
theorem State.Ends.regs_cases {s t : State} {i : Instr} (h : s.Ends i t) :
    (∃ r v, (controls i).wa = some r ∧ t.regs = s.regs.set r v) ∨ t.regs = s.regs := by
  cases h with
  | cmovTrue | index | add | mul | div | nand | alloc | inByte | inEof | lc => exact .inl ⟨_, _, rfl, rfl⟩
  | _ => exact .inr rfl

/-- Settles O47, by `State.Ends.regs_cases` and the register file's read-after-write law. -/
theorem onlyTheWritePortRegisterChanges : Obligations.OnlyTheWritePortRegisterChanges := by
  intro i s t r h hr
  rcases (exec_inv h).regs_cases with ⟨q, v, hq, e⟩ | e
  · have hne : r ≠ q := fun he => hr (he ▸ hq)
    rw [State.x, e, Regs.get_set_other _ _ hne, State.x]
  · rw [State.x, e, State.x]

/-- Creating a segment under a fresh identifier changes the length of no live segment (R40). -/
theorem Memory.length?_create {m : Memory} {k id : Word} (n : Word) (hk : m.live k = false) (hid : m.live id = true) :
    (m.create k n).length? id = m.length? id := by
  have hne : id ≠ k := fun e => by simp [e, hk] at hid
  simp [Memory.length?, Memory.create, Memory.find_put_other m _ hne]

/-- What is still live after Free has the length it had (R41). -/
theorem Memory.length?_free {m m' : Memory} {id id' : Word} (hm : m.free id = .ok m') (hl : m'.live id' = true) :
    m'.length? id' = m.length? id' := by
  have hne : id' ≠ id := fun e => by simp [Memory.live_free hm, e] at hl
  simp [Memory.length?, Memory.find_free_other hm hne]

/-- A segment that has a length is live (R36, R37). -/
theorem Memory.live_of_length? {m : Memory} {id n : Word} (h : m.length? id = some n) : m.live id = true := by
  obtain ⟨g, hg, -⟩ := Option.map_eq_some_iff.1 h
  simp [Memory.live, hg]

/-- A segment live before and after an instruction keeps its length, but for segment 0 under Load-Program (R16). -/
theorem State.Ends.length?_cases {s t : State} {i : Instr} (h : s.Ends i t) {id : Word} (hs : s.mem.live id = true)
    (ht : t.mem.live id = true) :
    t.mem.length? id = s.mem.length? id ∨ (id = 0#32 ∧ ∃ b c, i = .loadprog b c) := by
  cases h with
  | amend a b c m hw => exact .inl (Memory.length_write id hw)
  | alloc b c k _ _ _ hdead => exact .inl (Memory.length?_create _ hdead hs)
  | abandon c m _ _ hm => exact .inl (Memory.length?_free hm ht)
  | load b c g =>
    by_cases h0 : id = 0#32
    · exact .inr ⟨h0, b, c, rfl⟩
    · exact .inl (by simp [Memory.length?, Memory.find_install, h0])
  | _ => exact .inl rfl

/-- Settles O50, by `State.Ends.length?_cases`. -/
theorem lengthsAreImmutable : Obligations.LengthsAreImmutable := by
  intro i s t id n m h hn hm
  refine ((exec_inv h).length?_cases (Memory.live_of_length? hn) (Memory.live_of_length? hm)).imp_left fun e => ?_
  exact Option.some.inj (hn.symm.trans (e.symm.trans hm))

/-! ## The ALU and the fetch's increment -/

/-- Settles O11: each law is that of the bit-vector operation the ALU applies. -/
theorem aluComputesUnsignedModulo : Obligations.AluComputesUnsignedModulo := by
  intro p q
  refine ⟨BitVec.toNat_add p q, BitVec.toNat_mul p q, fun _ => BitVec.toNat_udiv, fun i hi => ?_, ?_, fun op hop => ?_⟩
  · simp [alu, hi]
  · simp [alu, divisorIsZero]
  · cases op with
    | div => exact absurd rfl hop
    | add | mul | nand => rfl

/-- An offset inside a segment has a successor that is a word, since a length is one (R14, R16). -/
theorem Segment.inBounds.toNat_succ {g : Segment} {off : Word} (h : g.inBounds off) :
    (off + 1).toNat = off.toNat + 1 := by
  have := g.len.isLt
  bv_omega

/-- Settles O40: a fetch that succeeds reads inside segment 0, so ip has a successor. -/
theorem fetchIncrementNeverWraps : Obligations.FetchIncrementNeverWraps := by
  intro s w h
  rcases s.fetchWord_cases with ⟨hb, -⟩ | ⟨-, hf⟩
  · exact Segment.inBounds.toNat_succ hb
  · simp [(s.fetchWord_eq_ok_iff w).2 h] at hf

end Sys2Proof.Machine

/-! SUPPORT. The memory store and its users: the image's byte order, stores that read alike, Install and the copy of
Load-Program, who changes memory, and which identifier the reference policy issues (spec/20_memory.md R35 to R44, R52,
R58; spec/43_host_io.md R92; spec/92_eei_decisions.md D4). -/

namespace Sys2Proof

/-! ## The image's byte order (R44) -/

/-- Appending a byte to a word of bits multiplies by 2^8 and adds. -/
theorem toNat_append_byte {m : Nat} (x : BitVec m) (b : Byte) : (x ++ b).toNat = x.toNat * 2 ^ 8 + b.toNat := by
  rw [BitVec.toNat_append, ← Nat.shiftLeft_add_eq_or_of_lt b.isLt, Nat.shiftLeft_eq]

theorem toNat_wordOfBytes (b0 b1 b2 b3 : Byte) :
    (wordOfBytes b0 b1 b2 b3).toNat =
      b0.toNat * 2 ^ 24 + b1.toNat * 2 ^ 16 + b2.toNat * 2 ^ 8 + b3.toNat := by
  simp only [wordOfBytes, toNat_append_byte]
  omega

/-- What does not begin with four bytes has fewer than four. -/
theorem length_lt_four_of_no_word {image : List Byte}
    (h : ∀ b0 b1 b2 b3 rest, image = b0 :: b1 :: b2 :: b3 :: rest → False) : image.length < 4 := by
  match image, h with
  | [], _ | [_], _ | [_, _], _ | [_, _, _], _ => simp
  | b0 :: b1 :: b2 :: b3 :: rest, h => exact (h b0 b1 b2 b3 rest rfl).elim

theorem length_imageWords {image : List Byte} {n : Nat} (h : image.length = 4 * n) : (imageWords image).length = n := by
  induction image using imageWords.induct generalizing n with
  | case1 b0 b1 b2 b3 rest ih =>
    simp only [List.length_cons] at h
    simp only [imageWords, List.length_cons, ih (n := n - 1) (by omega)]
    omega
  | case2 image hshort =>
    have hlt := length_lt_four_of_no_word hshort
    obtain rfl : n = 0 := by omega
    rw [List.eq_nil_of_length_eq_zero h]
    rfl

/-- Word k of an image is made of the bytes 4k to 4k + 3, where the image has them (R44). -/
theorem getElem?_imageWords {image : List Byte} {k : Nat} (hk : 4 * k + 3 < image.length) :
    ∃ b0 b1 b2 b3 : Byte, image[4 * k]? = some b0 ∧ image[4 * k + 1]? = some b1 ∧ image[4 * k + 2]? = some b2 ∧
      image[4 * k + 3]? = some b3 ∧ (imageWords image)[k]? = some (wordOfBytes b0 b1 b2 b3) := by
  induction image using imageWords.induct generalizing k with
  | case1 b0 b1 b2 b3 rest ih =>
    cases k with
    | zero => exact ⟨b0, b1, b2, b3, rfl, rfl, rfl, rfl, rfl⟩
    | succ k =>
      simp only [List.length_cons] at hk
      exact ih (k := k) (by omega)
  | case2 image hshort =>
    have hlt := length_lt_four_of_no_word hshort
    omega

/-- Settles O8: the number of words and the bytes of word k, each by induction over the image four bytes at a time. -/
theorem imageIsBigEndian : Obligations.ImageIsBigEndian := by
  intro image n hlen
  refine ⟨length_imageWords hlen, fun k hk => ?_⟩
  obtain ⟨b0, b1, b2, b3, h0, h1, h2, h3, hw⟩ := getElem?_imageWords (image := image) (k := k) (by omega)
  exact ⟨b0, b1, b2, b3, _, h0, h1, h2, h3, hw, toNat_wordOfBytes b0 b1 b2 b3⟩

end Sys2Proof

namespace Sys2Proof.Machine

/-! ## Stores of canonical form are determined by what they read -/

theorem toNat_ofNat_of_lt {k : Nat} (hk : k < 2 ^ 32) : (BitVec.ofNat 32 k).toNat = k := Nat.mod_eq_of_lt hk

/-- A positive number of 32 bits is a non-zero word. -/
theorem ofNat_ne_zero {k : Nat} (h0 : 0 < k) (hk : k < 2 ^ 32) : BitVec.ofNat 32 k ≠ 0#32 := fun e =>
  h0.ne' ((toNat_ofNat_of_lt hk).symm.trans (congrArg BitVec.toNat e))

/-- Lists with rising keys that have the same members are equal. -/
theorem KeysRise.eq_of_mem_iff {α : Type} {l l' : List (Nat × α)} (h : KeysRise l) (h' : KeysRise l')
    (hmem : ∀ k v, (k, v) ∈ l ↔ (k, v) ∈ l') : l = l' := by
  have : Std.Irrefl fun p q : Nat × α => p.1 < q.1 := ⟨fun p => Nat.lt_irrefl p.1⟩
  have : Std.Antisymm fun p q : Nat × α => p.1 < q.1 := ⟨fun p q hpq hqp => absurd hqp (Nat.lt_asymm hpq)⟩
  exact List.Pairwise.eq_of_mem_iff h h' fun p => hmem p.1 p.2

/-- Where keys rise, a member is what its key is looked up as. -/
theorem KeysRise.mem_iff {α : Type} {l : List (Nat × α)} (h : KeysRise l) (k : Nat) (v : α) :
    (k, v) ∈ l ↔ assocGet k l = some v := by
  refine ⟨fun hmem => ?_, mem_of_assocGet⟩
  induction l with
  | nil => cases hmem
  | cons q t ih =>
    obtain ⟨hq, ht⟩ := List.pairwise_cons.1 h
    rcases List.mem_cons.1 hmem with rfl | hmem
    · simp [assocGet]
    · have hne : k ≠ q.1 := (hq _ hmem).ne'
      simpa [assocGet, hne] using ih ht hmem

/-- The listed cells of a segment in canonical form are its words other than 0 (R38; log 8). -/
theorem Segment.mem_cells_iff {g : Segment} (h : g.wf) (k : Nat) (v : Word) :
    (k, v) ∈ g.cells ↔ k < g.len.toNat ∧ v ≠ unlistedWord ∧ g.get (BitVec.ofNat 32 k) = v := by
  obtain ⟨hrise, hcells⟩ := h
  have hget : k < g.len.toNat → g.get (BitVec.ofNat 32 k) = (assocGet k g.cells).getD unlistedWord := fun hk => by
    rw [Segment.get, toNat_ofNat_of_lt (hk.trans g.len.isLt)]
  constructor
  · intro hmem
    obtain ⟨hk, hv⟩ := hcells _ hmem
    exact ⟨hk, hv, by rw [hget hk, (hrise.mem_iff k v).1 hmem, Option.getD_some]⟩
  · rintro ⟨hk, hv, hread⟩
    rw [hget hk] at hread
    cases hfound : assocGet k g.cells with
    | none => exact absurd (by simpa [hfound] using hread.symm) hv
    | some w => exact mem_of_assocGet (by simpa [hfound] using hread)

/-- Segments in canonical form with the same length and the same words are equal (R37, R38). -/
theorem Segment.eq_of_get {g g' : Segment} (h : g.wf) (h' : g'.wf) (hlen : g'.len = g.len)
    (hget : ∀ off, g.inBounds off → g'.get off = g.get off) : g = g' := by
  have hcells : g.cells = g'.cells := h.1.eq_of_mem_iff h'.1 fun k v => by
    rw [Segment.mem_cells_iff h, Segment.mem_cells_iff h', hlen]
    refine and_congr_right fun hk => ?_
    have hb : g.inBounds (BitVec.ofNat 32 k) := by
      rwa [Segment.inBounds, BitVec.lt_def, toNat_ofNat_of_lt (hk.trans g.len.isLt)]
    rw [hget _ hb]
  exact congrArg₂ Segment.mk hlen.symm hcells

/-- Stores of canonical form that read alike hold the same segment under each identifier (R36 to R38). -/
theorem Memory.find_eq_of_readsAs {m m' : Memory} (h : m.wf) (h' : m'.wf) (hr : m.readsAs m') (id : Word) :
    m.find id = m'.find id := by
  obtain ⟨hread, hlen, -⟩ := hr
  have hl : (m'.find id).map (·.len) = (m.find id).map (·.len) := hlen id
  cases hg : m.find id with
  | none => simpa [hg, eq_comm] using hl
  | some g =>
    obtain ⟨g', hg', hlen'⟩ : ∃ g', m'.find id = some g' ∧ g'.len = g.len := by simpa [hg] using hl
    rw [hg', Segment.eq_of_get (Memory.find_wf h hg) (Memory.find_wf h' hg') hlen' fun off hb => ?_]
    have hb' : g'.inBounds off := by rwa [Segment.inBounds, hlen']
    have hoff := hread id off
    rw [Memory.read_eq_ok hg hb, Memory.read_eq_ok hg' hb'] at hoff
    exact Except.ok.inj hoff

/-- The listed segments of a store in canonical form are those found under non-zero identifiers (R36). -/
theorem Memory.mem_segs_iff {m : Memory} (h : m.wf) (k : Nat) (g : Segment) :
    (k, g) ∈ m.segs ↔ 0 < k ∧ k < 2 ^ 32 ∧ m.find (BitVec.ofNat 32 k) = some g := by
  obtain ⟨-, hrise, hkeys⟩ := h
  have hfind : 0 < k → k < 2 ^ 32 → m.find (BitVec.ofNat 32 k) = assocGet k m.segs := fun h0 hk => by
    rw [Memory.find, if_neg (ofNat_ne_zero h0 hk), toNat_ofNat_of_lt hk]
  constructor
  · intro hmem
    obtain ⟨h0, hk, -⟩ := hkeys _ hmem
    exact ⟨h0, hk, (hfind h0 hk).trans ((hrise.mem_iff k g).1 hmem)⟩
  · rintro ⟨h0, hk, hf⟩
    exact mem_of_assocGet ((hfind h0 hk).symm.trans hf)

/-- Settles O56: reading alike fixes the segment found under each identifier, and these are all a store lists. -/
theorem canonicalStoresThatReadAlikeAreEqual : Obligations.CanonicalStoresThatReadAlikeAreEqual := by
  intro m m' h h' hr
  have hfind := Memory.find_eq_of_readsAs h h' hr
  have hseg0 : m.seg0 = m'.seg0 := Option.some.inj (hfind 0#32)
  have hsegs : m.segs = m'.segs := h.2.1.eq_of_mem_iff h'.2.1 fun k g => by
    rw [Memory.mem_segs_iff h, Memory.mem_segs_iff h', hfind]
  exact congrArg₂ Memory.mk hseg0 hsegs

/-! ## Install and the copy of Load-Program (R43, R58) -/

/-- Settles O30: Install answers the new segment for identifier 0 and what it answered before for every other. -/
theorem installReplacesSegmentZeroOnly : Obligations.InstallReplacesSegmentZeroOnly := by
  intro m g
  refine ⟨by simp [Memory.length?], fun off hoff => ?_, fun id hid => ?_⟩
  · exact Memory.read_eq_ok (Memory.find_zero _) (BitVec.lt_def.2 hoff)
  · exact Memory.segmentAs_of_find (by simp [Memory.find_install, hid])

/-- A write leaves every other segment as it was (R39). -/
theorem Memory.segmentAs_write_other {m m' : Memory} {id id' off v : Word} (h : m.write id off v = .ok m')
    (hne : id' ≠ id) : m.segmentAs m' id' := by
  obtain ⟨g, -, -, rfl⟩ := Memory.write_ok h
  exact Memory.segmentAs_of_find (Memory.find_put_other m _ hne)

/-- Load-Program from a live non-zero segment, where the host grants the storage, installs that segment (R42, R87). -/
theorem exec_loadprog_live {b c : Reg} {s : State} (h0 : s.x b ≠ 0#32) (hl : s.mem.live (s.x b) = true)
    (ho : s.host.nextOom = false) :
    ∃ g, s.mem.find (s.x b) = some g ∧
      exec (.loadprog b c) s = .next ((s.afterOomDraw.withMem (s.mem.install g)).setIp (s.x c)) := by
  rcases exec_loadprog_cases b c s with ⟨h, -⟩ | ⟨-, hf, -⟩ | ⟨g, -, -, h, -⟩ | ⟨g, -, hf, -, he⟩
  · exact absurd h h0
  · simp [Memory.live, hf] at hl
  · simp [ho] at h
  · exact ⟨g, hf, he⟩

/-- Settles O31: the source stays live, and no write reaches a segment other than its own. -/
theorem loadedCopyIsIndependent : Obligations.LoadedCopyIsIndependent := by
  intro b c s t h0 hl ho h
  obtain ⟨g, hf, he⟩ := exec_loadprog_live (c := c) h0 hl ho
  obtain rfl := Host.Outcome.next.inj (h.symm.trans he)
  refine ⟨?_, fun _ _ _ hw => Memory.segmentAs_write_other hw h0.symm, fun _ _ _ hw =>
    Memory.segmentAs_write_other hw h0⟩
  simp [Memory.live, Memory.find_install, h0, hf]

/-! ## Who acts outside the core (R35, R92) -/

/-- An instruction whose unit does not change memory leaves the store and the allocator as they were (R35). -/
theorem State.Ends.storage_same {s t : State} {i : Instr} (h : s.Ends i t)
    (hu : (controls i).unit.changesMemory = false) : t.mem = s.mem ∧ t.alloc = s.alloc := by
  cases h with
  | amend | alloc | abandon | load => cases hu
  | _ => exact ⟨rfl, rfl⟩

/-- An instruction whose unit makes no byte call leaves the bytes sent and the answers to come as they were (R92). -/
theorem State.Ends.bytes_same {s t : State} {i : Instr} (h : s.Ends i t)
    (hu : (controls i).unit.callsHost = false) :
    t.host.output = s.host.output ∧ t.host.input = s.host.input ∧ t.host.writes = s.host.writes := by
  cases h with
  | out | outError | inByte | inEof | inError | inWait => cases hu
  | _ => exact ⟨rfl, rfl, rfl⟩

/-- Settles O49, by `State.Ends.storage_same` and `State.Ends.bytes_same`. -/
theorem onlyTheNamedUnitsActOutside : Obligations.OnlyTheNamedUnitsActOutside := by
  intro i s t h
  refine ⟨fun hu => ?_, (exec_inv h).bytes_same⟩
  obtain ⟨hmem, halloc⟩ := (exec_inv h).storage_same hu
  exact ⟨hmem ▸ Memory.readsAs_refl _, halloc⟩

/-! ## What the reference policy issues (R40, R41, R52) -/

/-- The reference policy issues the most recently freed identifier (R52). -/
theorem AllocState.choose_freed {a : AllocState} {m : Memory} {k : Word} {rest : List Word} (h : a.isReference)
    (hfree : a.free = k :: rest) (hk : m.fresh k = true) : a.choose m = some k := by
  simp [AllocState.choose, AllocState.candidates_reference h, hfree, hk]

/-- With no identifier freed, the reference policy issues the counter (R52). -/
theorem AllocState.choose_next {a : AllocState} {m : Memory} (h : a.isReference) (hfree : a.free = [])
    (hk : m.fresh (BitVec.ofNat 32 a.next) = true) : a.choose m = some (BitVec.ofNat 32 a.next) := by
  simp [AllocState.choose, AllocState.candidates_reference h, hfree, hk]

/-- Allocate names the identifier chosen, where the host grants the storage (R40, R81). -/
theorem exec_alloc_choose {b c : Reg} {s : State} {k : Word} (ho : s.host.nextOom = false)
    (hc : s.alloc.choose s.mem = some k) : exec (.alloc b c) s = .next
      (((s.afterOomDraw.withMem (s.mem.create k (s.x c))).withAlloc (s.alloc.update k)).setX b k) := by
  rcases exec_alloc_cases b c s with ⟨h, -⟩ | ⟨k', -, hc', -, -, he⟩
  · simp [ho, hc] at h
  · obtain rfl := Option.some.inj (hc.symm.trans hc')
    exact he

/-- Abandon of a live non-zero segment frees it and tells the policy (R41, R82). -/
theorem exec_abandon_live {c : Reg} {s : State} (h0 : s.x c ≠ 0#32) (hl : s.mem.live (s.x c) = true) :
    ∃ m, s.mem.free (s.x c) = .ok m ∧
      exec (.abandon c) s = .next ((s.withMem m).withAlloc (s.alloc.release (s.x c))) := by
  rcases exec_abandon_cases c s with ⟨h, -⟩ | ⟨-, h, -⟩ | ⟨m, -, -, hm, he⟩
  · exact absurd h h0
  · simp [hl] at h
  · exact ⟨m, hm, he⟩

/-- Settles O24: the first candidate of the reference policy is fresh, so it is issued, and the update takes it off the
free list or moves the counter on. -/
theorem referencePolicyReusesTheLastFreed : Obligations.ReferencePolicyReusesTheLastFreed := by
  intro b c s ho href
  refine ⟨fun k rest hfree hk => ?_, fun hfree hlt hk => ?_⟩
  · refine ⟨_, exec_alloc_choose ho (AllocState.choose_freed href hfree hk), State.x_setX_same _ b k, ?_⟩
    simp [AllocState.update, hfree]
  · refine ⟨_, exec_alloc_choose ho (AllocState.choose_next href hfree hk), State.x_setX_same _ b _, ?_⟩
    simpa [AllocState.update, hfree] using hlt

/-- Settles O25: Abandon puts the identifier at the head of the free list and makes it fresh. -/
theorem abandonThenAllocateReuses : Obligations.AbandonThenAllocateReuses := by
  intro b c d s t u href h0 hl ho ht hu
  obtain ⟨m, hm, he⟩ := exec_abandon_live h0 hl
  obtain rfl := Host.Outcome.next.inj (ht.symm.trans he)
  have hfresh : m.fresh (s.x c) = true := (m.fresh_iff _).2 ⟨h0, by simp [Memory.live_free hm]⟩
  have hc : (s.alloc.release (s.x c)).choose m = some (s.x c) :=
    AllocState.choose_freed (AllocState.isReference_release href _) rfl hfresh
  obtain rfl := Host.Outcome.next.inj (hu.symm.trans (exec_alloc_choose ho hc))
  exact State.x_setX_same _ b _

/-- In a store of canonical form, Alloc finds no identifier exactly when every non-zero one is live (R40). -/
theorem AllocState.choose_eq_none_iff {a : AllocState} {m : Memory} (hw : m.wf) :
    a.choose m = none ↔ ∀ id, id ≠ 0#32 → m.live id = true := by
  refine ⟨fun h _ => AllocState.choose_none hw h, fun hall => Option.eq_none_iff_forall_ne_some.2 fun k hk => ?_⟩
  obtain ⟨h0, hdead⟩ := AllocState.choose_fresh hk
  simp [hall k h0] at hdead

/-- Under the reference policy every non-zero identifier is live exactly when the counter has passed them all and none
is on the free list (R52). -/
theorem State.ReferencePolicy.all_live_iff {s : State} (h : s.ReferencePolicy) (ha : s.alloc.wf s.mem) :
    (∀ id, id ≠ 0#32 → s.mem.live id = true) ↔ s.alloc.next = 2 ^ 32 ∧ s.alloc.free = [] := by
  obtain ⟨-, hfresh, h1, h2⟩ := (s.alloc.wf_iff s.mem).1 ha
  obtain ⟨-, -, hnext⟩ := h
  constructor
  · refine fun hall => ⟨?_, List.eq_nil_iff_forall_not_mem.2 fun k hk => ?_⟩
    · by_contra hne
      have hlt : s.alloc.next < 2 ^ 32 := by omega
      have h0 := ofNat_ne_zero h1 hlt
      have hdead := (hnext _ h0).2 (toNat_ofNat_of_lt hlt).ge
      simp [hall _ h0] at hdead
    · obtain ⟨h0, hdead⟩ := hfresh k hk
      simp [hall k h0] at hdead
  · rintro ⟨hmax, hfree⟩ id h0
    have hlt : id.toNat < s.alloc.next := hmax ▸ id.isLt
    simpa [hfree] using (hnext id h0).1 hlt

/-- Settles O60: running out is every non-zero identifier being live, which the reference policy's reading says in terms
of its counter and free list. -/
theorem referencePolicyExhaustion : Obligations.ReferencePolicyExhaustion := by
  rintro s ⟨hm, ha, -⟩ href
  have hnone := AllocState.choose_eq_none_iff (a := s.alloc) hm
  exact ⟨hnone.trans (href.all_live_iff ha), hnone⟩

end Sys2Proof.Machine

/-! SUPPORT. The decoder and the encoder: what it is for a word to encode an instruction, which the decoder answers
exactly; the words with a meaning of their own (spec/30_encoding.md R61 to R71). -/

namespace Sys2Proof

/-! ## The fields as numbers (R6, R61 to R63) -/

@[simp] theorem toNat_bits (w : Word) (lo k : Nat) : (bits w lo k).toNat = w.toNat / 2 ^ lo % 2 ^ k := by
  simp [bits, Nat.shiftRight_eq_div_pow]

/-- The opcode is the top of the word, so no mask is needed (R61). -/
theorem toNat_opField (w : Word) : (opField w).toNat = w.toNat / 2 ^ 28 := by
  have := w.isLt
  simp only [opField, toNat_bits]
  omega

/-- Settles O1: each field is the slice its definition names; bits 31..28 and the lowest bits need no mask or no
shift. -/
theorem fieldsAreShiftAndMask : Obligations.FieldsAreShiftAndMask := by
  intro w
  refine ⟨toNat_opField w, ?_⟩
  simp [aField, bField, cField, aLcField, immField]

/-! ## What it is for a word to encode an instruction (R64, R65) -/

/-- The operands of an instruction are those a word holds, in the fields its opcode uses; the other bits are free
(R65). -/
def Instr.OperandsIn (w : Word) : Instr → Prop
  | .cmov a b c | .index a b c | .amend a b c | .add a b c | .mul a b c | .div a b c | .nand a b c =>
    Reg.ofBits (aField w) = a ∧ Reg.ofBits (bField w) = b ∧ Reg.ofBits (cField w) = c
  | .alloc b c | .loadprog b c => Reg.ofBits (bField w) = b ∧ Reg.ofBits (cField w) = c
  | .abandon c | .out c | .inp c => Reg.ofBits (cField w) = c
  | .lc a imm => Reg.ofBits (aLcField w) = a ∧ immOperand w = imm
  | .halt | .illegal14 | .illegal15 => True

/-- A word encodes an instruction, canonically or with any value in the ignored bits (R64, R65). -/
structure Encodes (w : Word) (i : Instr) : Prop where
  opcode : opField w = i.opcode
  operands : i.OperandsIn w

/-- Every word encodes what it decodes to (R64). -/
theorem encodes_decode (w : Word) : Encodes w (decode w) := by
  have hlt := (opField w).isLt
  unfold decode
  split
  case h_16 => -- the decoder's last row: the only opcode left is 15
    have h15 : (opField w).toNat = 15 := by grind
    exact ⟨BitVec.eq_of_toNat_eq h15, trivial⟩
  all_goals exact ⟨BitVec.eq_of_toNat_eq ‹_›, by simp [Instr.OperandsIn]⟩

/-- A word decodes to whatever it encodes, so it encodes one instruction only (R64). -/
theorem Encodes.decode_eq {w : Word} {i : Instr} (h : Encodes w i) : decode w = i := by
  obtain ⟨hop, hargs⟩ := h
  unfold decode
  rw [hop]
  cases i with
  | cmov | index | amend | add | mul | div | nand =>
    obtain ⟨rfl, rfl, rfl⟩ := hargs
    rfl
  | alloc | loadprog | lc =>
    obtain ⟨rfl, rfl⟩ := hargs
    rfl
  | abandon | out | inp =>
    obtain rfl := hargs
    rfl
  | halt | illegal14 | illegal15 => rfl

/-- The decoder answers the one instruction a word encodes (R64, R65). -/
theorem decode_eq_iff (w : Word) (i : Instr) : decode w = i ↔ Encodes w i :=
  ⟨fun h => h ▸ encodes_decode w, Encodes.decode_eq⟩

/-- Settles O2: the clause of an opcode is that the word encodes the clause's instruction, its operands read from the
word itself. -/
theorem decoderIsTheTotalFunction : Obligations.DecoderIsTheTotalFunction := by
  refine ⟨fun w => ?_, rfl, rfl, rfl, rfl, rfl, rfl, rfl, rfl⟩
  have himm : (immOperand w).toNat = (immField w).toNat :=
    BitVec.toNat_setWidth_of_le (by decide)
  simp only [decode_eq_iff]
  refine ⟨?_, ?_, ?_, ?_, ?_, ?_, ?_, ?_, ?_, ?_, ?_, ?_, ?_, fun h => ⟨_, himm, h, rfl, rfl⟩, ?_, ?_⟩ <;>
    exact fun h => ⟨h, by simp [Instr.OperandsIn]⟩

/-- Settles O3: the illegal rows are opcodes 14 and 15, and the opcode is the word divided by 2^28. -/
theorem illegalWordsAreFromE0000000 : Obligations.IllegalWordsAreFromE0000000 := by
  intro w
  have h14 : decode w = .illegal14 ↔ opField w = 14#4 :=
    (decode_eq_iff w _).trans ⟨Encodes.opcode, fun h => ⟨h, trivial⟩⟩
  have h15 : decode w = .illegal15 ↔ opField w = 15#4 :=
    (decode_eq_iff w _).trans ⟨Encodes.opcode, fun h => ⟨h, trivial⟩⟩
  have hlt := w.isLt
  simp only [h14, h15, ← BitVec.toNat_inj, toNat_opField, BitVec.toNat_ofNat]
  omega

/-! ## Encoding and decoding (R69) -/

theorem opField_encode (i : Instr) : opField (encode i) = i.opcode := by
  cases i with
  | lc a imm => exact opField_lcWord _ _
  | _ => exact opField_rrrWord _ _ _ _

/-- A well-formed instruction is encoded by its canonical word (R69). -/
theorem encodes_encode {i : Instr} (h : i.wf) : Encodes (encode i) i := by
  refine ⟨opField_encode i, ?_⟩
  cases i with
  | lc a imm => simp [Instr.OperandsIn, encode, immOperand, immInRange_roundtrip h]
  | _ => simp [Instr.OperandsIn, encode]

/-- What some word encodes is well formed: its immediate has 25 bits (R64). -/
theorem Encodes.wf {w : Word} {i : Instr} (h : Encodes w i) : i.wf := by
  cases i with
  | lc a imm =>
    obtain ⟨-, -, rfl⟩ := h
    exact immOperand_inRange w
  | _ => trivial

/-- Settles O4: the canonical word encodes the instruction, and a word decodes to what it encodes. -/
theorem decodeOfEncodeIsIdentity : Obligations.DecodeOfEncodeIsIdentity := fun _ h => (encodes_encode h).decode_eq

/-- Settles O5: what a word decodes to is well formed, so its canonical word decodes to it as well. -/
theorem canonicalWordDecodesTheSame : Obligations.CanonicalWordDecodesTheSame := fun w =>
  have hwf := (encodes_decode w).wf
  ⟨hwf, decodeOfEncodeIsIdentity _ hwf⟩

/-- Settles O6: the second word encodes what the first one decodes to, since the fields that instruction reads agree. -/
theorem ignoredBitsDoNotMatter : Obligations.IgnoredBitsDoNotMatter := by
  intro w w' hop habc hbc hc hlc
  obtain ⟨hw, hargs⟩ := encodes_decode w
  refine (Encodes.decode_eq ⟨hop ▸ hw, ?_⟩).symm
  generalize decode w = i at hw hargs
  cases i with
  | cmov | index | amend | add | mul | div | nand =>
    obtain ⟨ha, hb, hc⟩ := habc (by simp [hw, Instr.opcode])
    simpa [Instr.OperandsIn, ha, hb, hc] using hargs
  | alloc | loadprog =>
    obtain ⟨hb, hc⟩ := hbc (by simp [hw, Instr.opcode])
    simpa [Instr.OperandsIn, hb, hc] using hargs
  | abandon | out | inp =>
    simpa [Instr.OperandsIn, hc (by simp [hw, Instr.opcode])] using hargs
  | lc =>
    obtain ⟨ha, himm⟩ := hlc (by simp [hw, Instr.opcode])
    simpa [Instr.OperandsIn, immOperand, ha, himm] using hargs
  | halt | illegal14 | illegal15 => trivial

/-- Settles O7: the decoder evaluated on each word. -/
theorem sampleWordsDecode : Obligations.SampleWordsDecode := by
  unfold Obligations.SampleWordsDecode
  decide

end Sys2Proof

namespace Sys2Proof.Machine

/-! ## The idioms of R71 and the illegal words of R67 -/

theorem Regs.set_set (g : Regs) (r : Reg) (v w : Word) : (g.set r v).set r w = g.set r w := by cases r <;> rfl

theorem Regs.set_get (g : Regs) (r : Reg) : g.set r (g.get r) = g := by cases r <;> rfl

/-- The later of two writes to a register is the one that counts. -/
@[simp] theorem State.setX_setX (s : State) (r : Reg) (v w : Word) : (s.setX r v).setX r w = s.setX r w := by
  simp [State.setX, Regs.set_set]

/-- Writing a register's own value changes nothing. -/
@[simp] theorem State.setX_x (s : State) (r : Reg) : s.setX r (s.x r) = s := by
  simp [State.setX, State.x, Regs.set_get]

/-- Settles O18: the first Not-And leaves the complement of x[B] in x[A], the second complements it again. -/
theorem twoNotAndsMoveARegister : Obligations.TwoNotAndsMoveARegister := by
  intro a b s t u ht hu
  obtain rfl := Host.Outcome.next.inj ((exec_nand a b b s).symm.trans ht)
  obtain rfl := Host.Outcome.next.inj ((exec_nand a a a _).symm.trans hu)
  simpa using s.wroteOnly_setX a (s.x b)

/-- Settles O19: the move is not taken, or it writes x[0] to x[0]. -/
theorem nopChangesNothing : Obligations.NopChangesNothing := by
  intro s
  rcases exec_cmov_cases .r0 .r0 .r0 s with ⟨-, h⟩ | ⟨-, h⟩
  · exact h
  · rw [h, s.setX_x]

/-- Settles O32: both illegal rows raise IllegalInstruction and do nothing else. -/
theorem illegalWordsRaiseIllegalInstruction : Obligations.IllegalWordsRaiseIllegalInstruction := fun s =>
  ⟨⟨_, exec_illegal14 s, s.faultedOnly_raise _, rfl⟩, _, exec_illegal15 s, s.faultedOnly_raise _, rfl⟩

end Sys2Proof.Machine

/-! SUPPORT. Conditional-Move, the ALU instructions and Load-Constant: what each writes, and that it changes nothing else
(spec/40_move_and_alu.md R73 to R78). The encodings are clauses of what it is for a word to encode an instruction, the
frames are `State.wroteOnly_setX` and `State.faultedOnly_raise`. -/

namespace Sys2Proof.Machine

/-- A state that stays as it is has every register written with its own value. -/
theorem State.wroteOnly_self (s : State) (r : Reg) : s.wroteOnly s r (s.x r) :=
  ⟨rfl, fun _ _ => rfl, Memory.readsAs_refl _, State.engineSame_refl _⟩

/-- Settles O12, by the two ways a Conditional-Move can end. -/
theorem conditionalMoveWritesWhenTrue : Obligations.ConditionalMoveWritesWhenTrue := by
  refine ⟨fun w hop => Encodes.decode_eq ⟨hop, rfl, rfl, rfl⟩, fun a b c s => ?_⟩
  rcases exec_cmov_cases a b c s with ⟨hc, he⟩ | ⟨hc, he⟩
  · exact ⟨s, he, by simpa [hc] using s.wroteOnly_self a⟩
  · exact ⟨_, he, by simpa [hc] using s.wroteOnly_setX a (s.x b)⟩

/-- Settles O13: addition of words is modulo 2^32. -/
theorem addWritesTheSum : Obligations.AddWritesTheSum :=
  ⟨fun _ hop => Encodes.decode_eq ⟨hop, rfl, rfl, rfl⟩, fun a b c s =>
    ⟨_, _, exec_add a b c s, s.wroteOnly_setX a _, BitVec.toNat_add _ _⟩⟩

/-- Settles O14: multiplication of words is modulo 2^32. -/
theorem multiplyWritesTheLowProduct : Obligations.MultiplyWritesTheLowProduct :=
  ⟨fun _ hop => Encodes.decode_eq ⟨hop, rfl, rfl, rfl⟩, fun a b c s =>
    ⟨_, _, exec_mul a b c s, s.wroteOnly_setX a _, BitVec.toNat_mul _ _⟩⟩

/-- Settles O15: with a non-zero divisor a Divide ends by writing the quotient of the words. -/
theorem divideWritesTheQuotient : Obligations.DivideWritesTheQuotient := by
  intro a b c s hc
  rcases exec_div_cases a b c s with ⟨h0, -⟩ | ⟨-, he⟩
  · exact absurd h0 hc
  · exact ⟨_, _, he, s.wroteOnly_setX a _, BitVec.toNat_udiv⟩

/-- Settles O16: with divisor 0 a Divide ends by the raise, which touches the status and the record only. -/
theorem divideByZeroFaults : Obligations.DivideByZeroFaults := by
  intro a b c s h0
  rcases exec_div_cases a b c s with ⟨-, he⟩ | ⟨hc, -⟩
  · exact ⟨_, he, s.faultedOnly_raise _, rfl⟩
  · exact absurd h0 hc

/-- Settles O17: the complement of the conjunction, read bit by bit below 32. -/
theorem notAndWritesBitwise : Obligations.NotAndWritesBitwise := by
  refine ⟨fun w hop => Encodes.decode_eq ⟨hop, rfl, rfl, rfl⟩, fun a b c s => ?_⟩
  refine ⟨_, _, exec_nand a b c s, s.wroteOnly_setX a _, fun i hi => ?_⟩
  simp [hi]

/-- The decoder's immediate is the low 25 bits of the word, read as a number (R63, R64). -/
theorem toNat_immOperand (w : Word) : (immOperand w).toNat = w.toNat % 2 ^ 25 :=
  calc (immOperand w).toNat
    _ = (immField w).toNat := BitVec.toNat_setWidth_of_le (by decide)
    _ = w.toNat % 2 ^ 25 := by simp [immField]

/-- Settles O20: the immediate the decoder gives is the word's low 25 bits, and executing writes it. -/
theorem loadConstantWritesTheImmediate : Obligations.LoadConstantWritesTheImmediate :=
  ⟨fun w hop => ⟨_, toNat_immOperand w, Encodes.decode_eq ⟨hop, rfl, rfl⟩⟩, fun a imm s =>
    ⟨_, exec_lc a imm s, s.wroteOnly_setX a imm⟩⟩

end Sys2Proof.Machine

/-! SUPPORT. Segment access and allocation: what Array-Index, Array-Amend, Allocate and Abandon answer, and all they leave
unchanged (spec/41_segment_memory.md R79 to R82; spec/20_memory.md R38 to R41, R59). -/

namespace Sys2Proof.Machine

/-! ## Access to a word (R38, R39) -/

/-- An offset below the length of a segment lies inside the segment found (R37, R38). -/
theorem Memory.find_inBounds {m : Memory} {id off n : Word} (hlen : m.length? id = some n)
    (hoff : off.toNat < n.toNat) : ∃ g, m.find id = some g ∧ g.inBounds off := by
  obtain ⟨g, hg, rfl⟩ := Option.map_eq_some_iff.1 hlen
  exact ⟨g, hg, BitVec.lt_def.2 hoff⟩

/-- Array-Index writes the word that was read to x[A] (R79). -/
theorem exec_index_of_read {a b c : Reg} {s : State} {v : Word} (h : s.mem.read (s.x b) (s.x c) = .ok v) :
    exec (.index a b c) s = .next (s.setX a v) := by
  rw [exec, execIndex, h, finish_ok]

/-- Array-Amend leaves the store that was written (R80). -/
theorem exec_amend_of_write {a b c : Reg} {s : State} {m : Memory}
    (h : s.mem.write (s.x a) (s.x b) (s.x c) = .ok m) : exec (.amend a b c) s = .next (s.withMem m) := by
  rw [exec, execAmend, h, finish_ok]

/-- Settles O21: the offset is in bounds, so the read succeeds, and the instruction writes one register. -/
theorem arrayIndexReadsTheWord : Obligations.ArrayIndexReadsTheWord := by
  intro a b c s n hlen hoff
  obtain ⟨g, hg, hb⟩ := Memory.find_inBounds hlen hoff
  have hread := Memory.read_eq_ok hg hb
  exact ⟨_, _, hread, exec_index_of_read hread, s.wroteOnly_setX a _⟩

/-- Settles O22: the offset is in bounds, so the write succeeds; what it changes and keeps are the laws of
`Memory.write`. -/
theorem arrayAmendWritesTheWord : Obligations.ArrayAmendWritesTheWord := by
  intro a b c s n hlen hoff
  obtain ⟨g, hg, hb⟩ := Memory.find_inBounds hlen hoff
  have hwrite := Memory.write_eq_ok (s.x c) hg hb
  exact ⟨_, exec_amend_of_write hwrite, Memory.read_write_same hwrite, fun _ _ => Memory.read_write_other hwrite,
    fun id => Memory.length_write id hwrite, fun id => Memory.live_write id hwrite, fun _ _ => rfl,
    State.engineSame_refl _⟩

/-! ## Creating and freeing a segment (R40, R41) -/

/-- A new segment has the length asked for (R40). -/
@[simp] theorem Memory.length?_create_same (m : Memory) (k n : Word) : (m.create k n).length? k = some n := by
  simp [Memory.length?, Memory.create]

/-- Every word of a new segment reads 0 (R40, R59). -/
theorem Memory.read_create_same {k n off : Word} (m : Memory) (hoff : off.toNat < n.toNat) :
    (m.create k n).read k off = .ok 0#32 :=
  Memory.read_eq_ok (Memory.find_put_same m k (Segment.zeros n)) (BitVec.lt_def.2 hoff)

/-- Creating a segment leaves every other segment as it was (R40). -/
theorem Memory.segmentAs_create_other {k id : Word} (m : Memory) (n : Word) (hne : id ≠ k) :
    m.segmentAs (m.create k n) id :=
  Memory.segmentAs_of_find (Memory.find_put_other m _ hne)

/-- An access through a dead identifier faults with InvalidSegment at every offset (R38). -/
theorem Memory.read_of_find_none {m : Memory} {id : Word} (h : m.find id = none) (off : Word) :
    m.read id off = .error .invalidSegment := by
  simp [Memory.read, h]

/-- In a store of canonical form a free non-zero identifier is found (R40). -/
theorem AllocState.exists_choose {m : Memory} (a : AllocState) (hw : m.wf)
    (hfree : ∃ id, id ≠ 0#32 ∧ m.live id = false) : ∃ k, a.choose m = some k := by
  obtain ⟨id, h0, hdead⟩ := hfree
  refine Option.ne_none_iff_exists'.1 fun hnone => ?_
  simp [AllocState.choose_none hw hnone h0] at hdead

/-- With no pick queued, the identifier issued is the choice of the implementation's own policy, unless that breaks the
constraint of R40. -/
theorem AllocState.choose_own_or {a : AllocState} {m : Memory} {k : Word} {p h : Nat} (hk : a.choose m = some k)
    (hp : a.picks = []) (ho : a.policy = .own p h) :
    k = Config.policyChoose p h ∨ m.fresh (Config.policyChoose p h) = false := by
  cases hf : m.fresh (Config.policyChoose p h) with
  | true => exact .inl (Option.some.inj (hk.symm.trans (AllocState.choose_own hp ho hf)))
  | false => exact .inr rfl

/-- Settles O23: an identifier is found because one is free, it is fresh because the policy's choice is checked, and the
store it leaves is described by the laws of `Memory.create`. -/
theorem allocateCreatesAFreshZeroSegment : Obligations.AllocateCreatesAFreshZeroSegment := by
  intro b c s hw ho hfree
  obtain ⟨k, hk⟩ := s.alloc.exists_choose hw hfree
  obtain ⟨h0, hdead⟩ := AllocState.choose_fresh hk
  refine ⟨_, k, exec_alloc_choose ho hk, h0, hdead, State.x_setX_same _ b k, fun r hr => ?_, ?_,
    Memory.length?_create_same _ k _, fun off => Memory.read_create_same s.mem,
    fun id => Memory.segmentAs_create_other s.mem _, rfl, rfl, rfl, rfl, fun p h hp hown => ?_⟩
  · exact State.x_setX_other _ k (List.ne_of_not_mem_cons hr)
  · simp [Memory.live_create]
  · exact ⟨AllocState.choose_own_or hk hp hown, by simp [AllocState.update, Policy.update, hown]⟩

/-- Settles O26: the freed identifier is found no longer, every other one is found as before, and the release is the
allocator's own. -/
theorem abandonFreesTheSegment : Obligations.AbandonFreesTheSegment := by
  intro c s h0 hl
  obtain ⟨m, hm, he⟩ := exec_abandon_live h0 hl
  refine ⟨_, he, ?_, Memory.read_of_find_none (Memory.find_free_same hm),
    fun id hne => Memory.segmentAs_of_find (Memory.find_free_other hm hne), fun _ _ => rfl, rfl, rfl, rfl, rfl, rfl⟩
  simp [Memory.live_free hm]

end Sys2Proof.Machine

/-! SUPPORT. Dispatch and control: the step at its fetch, the placed word, Halt, Load-Program, and where the status and
ip change (spec/42_dispatch_and_control.md R83 to R90; spec/60_exceptions.md R97, R101, R107). -/

namespace Sys2Proof.Machine

/-! ## The fetch (R83) -/

/-- A fetch at or past the length of segment 0 faults (R83). -/
theorem State.fetchWord_out {s : State} (h : s.mem.seg0.len.toNat ≤ s.ip.toNat) :
    s.fetchWord = .error .instructionPointerOutOfBounds := by
  rcases s.fetchWord_cases with ⟨hb, -⟩ | ⟨-, hf⟩
  · exact absurd (BitVec.lt_def.1 hb) h.not_gt
  · exact hf

/-- Settles O38: the boundary lets the step go on and the fetch reads the word. -/
theorem stepRunsTheDecodedInstruction : Obligations.StepRunsTheDecodedInstruction := fun s w hon hr =>
  step_of_fetch_ok (s.boundary_go_iff.2 hon) ((s.fetchWord_eq_ok_iff w).2 hr)

/-- Settles O41: the fetch faults before the increment, and the raise touches the status and the record only. -/
theorem fetchOutOfBoundsFaults : Obligations.FetchOutOfBoundsFaults := by
  intro s n hon hlen hle
  obtain rfl : s.mem.seg0.len = n := Option.some.inj hlen
  exact ⟨_, step_of_fetch_error (s.boundary_go_iff.2 hon) (State.fetchWord_out hle),
    s.passBoundary.faultedOnly_raise _⟩

/-- Settles O42: each of the three is a boundary that stops. -/
theorem noStepAfterTheEnd : Obligations.NoStepAfterTheEnd := by
  refine fun s => ⟨fun hs => ?_, fun hs => ?_, fun hs hc => ?_⟩
  · exact step_of_stop (by simp [State.boundary, hs])
  · exact step_of_stop (by simp [State.boundary, hs])
  · exact step_of_stop (by simp [State.boundary, hs, hc])

/-! ## The placed word (R83; logs 9, 10) -/

/-- A segment can be made to reach every offset but the last, since a length is a word (R16). -/
theorem Segment.inBounds_reach (g : Segment) {off : Word} (h : off ≠ BitVec.allOnes 32) :
    (g.reach off).inBounds off := by
  unfold Segment.reach
  by_cases hb : g.inBounds off
  · rwa [if_pos hb]
  · rw [if_neg hb]
    show off < off + 1
    have hne : off.toNat ≠ (BitVec.allOnes 32).toNat := toNat_ne_of_ne h
    simp only [BitVec.toNat_allOnes] at hne
    bv_omega

/-- The offset a word is placed at is never the last. -/
theorem State.placeOffset_ne_allOnes (s : State) : s.placeOffset ≠ BitVec.allOnes 32 := by
  unfold State.placeOffset
  by_cases h : s.ip = BitVec.allOnes 32
  · rw [if_pos h]; decide
  · rwa [if_neg h]

/-- The placed word is what a fetch reads. -/
theorem State.read_placeWord (s : State) (w : Word) :
    (s.placeWord w).mem.read 0#32 (s.placeWord w).ip = .ok w := by
  have hb : ((s.mem.seg0.reach s.placeOffset).set s.placeOffset w).inBounds s.placeOffset :=
    Segment.inBounds_reach _ s.placeOffset_ne_allOnes
  exact (Memory.read_eq_ok (Memory.find_zero _) hb).trans (congrArg _ (Segment.get_set_same _ _ _))

/-- Placing a word changes segment 0 and no other segment (R43). -/
theorem State.segmentAs_placeWord (s : State) (w : Word) {id : Word} (hid : id ≠ 0#32) :
    s.mem.segmentAs (s.placeWord w).mem id :=
  Memory.segmentAs_of_find ((Memory.find_install _ _ _).trans (if_neg hid))

/-- Where a word has been placed, the next step is not stopped (R83, R107). -/
theorem State.stepsOn_withFetchWord (s : State) (nbits w : Nat) : (s.withFetchWord nbits w).stepsOn := by
  refine ⟨rfl, ?_⟩
  show (if s.host.cancelIn = some 0 then none else s.host.cancelIn) ≠ some 0
  split
  · exact nofun
  · assumption

/-- Settles O39: the step after the placing is the one of O38, at the state whose ip is one more than the place. -/
theorem placedWordRunsNext : Obligations.PlacedWordRunsNext := by
  intro s w hw
  have hplaced : s.withFetchWord 32 w = s.makeReady.placeWord (BitVec.ofNat 32 w) := by
    rw [State.withFetchWord, Nat.mod_eq_of_lt hw]
  have hread := s.makeReady.read_placeWord (BitVec.ofNat 32 w)
  refine ⟨_, stepRunsTheDecodedInstruction _ _ (s.stepsOn_withFetchWord 32 w) (hplaced ▸ hread), fun _ => rfl, ?_,
    fun id hid => hplaced ▸ s.makeReady.segmentAs_placeWord _ hid⟩
  simpa [hplaced] using hread

/-! ## Halt and Load-Program (R86, R87) -/

/-- Settles O27: Halt moves the status alone, and a halted engine takes no step. -/
theorem haltStopsTheEngine : Obligations.HaltStopsTheEngine := fun s =>
  ⟨_, exec_halt s, rfl, fun _ _ => rfl, Memory.readsAs_refl _, rfl, rfl, rfl, rfl, (noStepAfterTheEnd s.halt).1 rfl⟩

/-- Settles O28: of the ways a Load-Program can end, only the jump has x[B] = 0. -/
theorem loadProgramJumps : Obligations.LoadProgramJumps := by
  intro b c s h0
  rcases exec_loadprog_cases b c s with ⟨-, he⟩ | ⟨h, -⟩ | ⟨_, h, -⟩ | ⟨_, h, -⟩
  · exact ⟨_, he, rfl, fun _ _ => rfl, Memory.readsAs_refl _, rfl, rfl, rfl, rfl⟩
  · exact absurd h0 h
  · exact absurd h0 h
  · exact absurd h0 h

/-- Settles O29: identifier 0 finds, after the install, what x[B] found before, and every other finds what it found. -/
theorem loadProgramInstallsACopy : Obligations.LoadProgramInstallsACopy := by
  intro b c s h0 hl ho
  obtain ⟨g, hf, he⟩ := exec_loadprog_live (c := c) h0 hl ho
  refine ⟨_, he, rfl, fun off => ?_, ?_, fun id hid => ?_, fun _ _ => rfl, rfl, rfl, rfl, rfl⟩
  · simp [Memory.read, hf]
  · simp [Memory.length?, hf]
  · exact Memory.segmentAs_of_find (by simp [Memory.find_install, hid])

/-! ## Where the status and ip change (R85, R88, R90) -/

/-- An instruction leaves status Halted, where there was none, exactly if it is Halt (R90). -/
theorem State.Ends.halted_iff {s t : State} {i : Instr} (h : s.Ends i t) (hs : s.status = .running) :
    t.status = .halted ↔ i = .halt := by
  rcases h.status_cases with ⟨hi, ht, -⟩ | ⟨hi, ht, -⟩ | ⟨hi, ht, -⟩
  · simp [hi, ht, hs]
  · simp [hi, ht]
  · simp [hi, ht]

/-- An instruction keeps ip, but for a Load-Program, which may set it to x[C], and an Input that waits, which puts it
back (R85, R88, R95). -/
theorem State.Ends.ip_cases {s t : State} {i : Instr} (h : s.Ends i t) :
    t.ip = s.ip ∨ (∃ b c, i = .loadprog b c ∧ t.ip = s.x c) ∨
    (∃ c, i = .inp c ∧ s.host.nextRead = .notYet ∧ t.ip = s.ip - 1) := by
  cases h with
  | jump b c | load b c => exact .inr (.inl ⟨b, c, rfl, rfl⟩)
  | inWait c hn => exact .inr (.inr ⟨c, rfl, hn, rfl⟩)
  | _ => exact .inl rfl

/-- Settles O48, by `State.Ends.ip_cases`. -/
theorem onlyLoadProgramRedirects : Obligations.OnlyLoadProgramRedirects := fun _ _ _ h => (exec_inv h).ip_cases

/-- Settles O43: a fetch fault leaves Faulted, an executed instruction leaves Halted exactly if it is Halt, and the
record agrees with the status because the step keeps the invariant. -/
theorem statusChangesOnlyAsStated : Obligations.StatusChangesOnlyAsStated := by
  intro s t hinv h
  obtain ⟨-, -, hfaulted, -⟩ := stepKeepsTheInvariant s t hinv h
  obtain ⟨hrun, -, hstep⟩ := step_cases h
  refine ⟨hrun, ?_, hfaulted.trans Option.isSome_iff_ne_none⟩
  rw [← BitVec.lt_def]
  rcases hstep with ⟨hout, rfl⟩ | ⟨hin, he⟩
  · exact ⟨nofun, fun hhalt => absurd hhalt.1 hout⟩
  · exact ((exec_inv he).halted_iff hrun).trans (iff_and_self.2 fun _ => hin)

end Sys2Proof.Machine

/-! SUPPORT. Host byte I/O, and that only an instruction that asks the host sees it: the ends of an instruction determine
what execution answers, and they carry over to every other host that draws alike (spec/43_host_io.md R92 to R96;
spec/20_memory.md R40, R42). -/

namespace Sys2Proof.Machine

/-! ## The ends of an instruction determine its execution -/

/-- Whatever way an instruction can end is what execution answers, since the conditions of its ends exclude each other
(R84). -/
theorem State.Ends.exec_eq {s t : State} {i : Instr} (h : s.Ends i t) : exec i s = .next t := by
  cases h with
  | cmovFalse a b c h | cmovTrue a b c h => simpa [h] using exec_cmov_cases a b c s
  | indexDead a b c hf => simpa [hf] using exec_index_cases a b c s
  | indexOut a b c g hf hb => simpa [hf, hb, BitVec.not_lt.1 hb] using exec_index_cases a b c s
  | index a b c g hf hb => exact exec_index_of_read (Memory.read_eq_ok hf hb)
  | amendDead a b c hf => simpa [hf, Memory.write] using exec_amend_cases a b c s
  | amendOut a b c g hf hb => simpa [hf, hb, BitVec.not_lt.1 hb, Memory.write] using exec_amend_cases a b c s
  | amend a b c m hw => exact exec_amend_of_write hw
  | add a b c => exact exec_add a b c s
  | mul a b c => exact exec_mul a b c s
  | divZero a b c h | div a b c h => simpa [h] using exec_div_cases a b c s
  | nand a b c => exact exec_nand a b c s
  | halt => exact exec_halt s
  | allocRefused b c h =>
    rcases exec_alloc_cases b c s with ⟨-, e⟩ | ⟨k, ho, hc, -⟩
    · exact e
    · simp [ho, hc] at h
  | alloc b c k ho hc => exact exec_alloc_choose ho hc
  | abandonZero c h => simpa [h] using exec_abandon_cases c s
  | abandonDead c h hl => simpa [h, hl] using exec_abandon_cases c s
  | abandon c m h hl hm => simpa [h, hl, hm] using exec_abandon_cases c s
  | outRange c h => simpa [h, h.not_ge] using exec_out_cases c s
  | out c h hw | outError c d h hw => simpa [h, h.not_gt, hw] using exec_out_cases c s
  | inByte c v h | inEof c h | inError c h | inWait c h => simpa [h] using exec_in_cases c s
  | jump b c h => simpa [h] using exec_loadprog_cases b c s
  | loadDead b c h hf => simpa [h, hf] using exec_loadprog_cases b c s
  | loadRefused b c g h hf ho | load b c g h hf ho => simpa [h, hf, ho] using exec_loadprog_cases b c s
  | lc a imm => exact exec_lc a imm s
  | illegal14 => exact exec_illegal14 s
  | illegal15 => exact exec_illegal15 s

/-! ## Another host (R40, R42, R92) -/

/-- The state with another host. -/
def State.withHost (s : State) (o : HostState) : State := { s with host := o }

theorem State.sameCore_withHost (s : State) (o : HostState) : s.sameCore (s.withHost o) :=
  ⟨rfl, rfl, rfl, rfl, rfl, rfl⟩

/-- A state with the same core is the state itself with another host. -/
theorem State.sameCore.eq_withHost {s s' : State} (h : s.sameCore s') : s' = s.withHost s'.host := by
  obtain ⟨hregs, hip, hmem, hstatus, hrecord, halloc⟩ := h
  rw [State.withHost, ← hregs, ← hip, ← hmem, ← hstatus, ← hrecord, ← halloc]

/-- An instruction that makes no byte call ends with another host the way it ends with its own, if both hosts make the
same draw where one is asked for (R40, R42, R92). Only the ends of Allocate and Load-Program mention the draw; the
condition of every other end speaks of the core alone. -/
theorem State.Ends.withHost {s t : State} {i : Instr} {o : HostState} (h : s.Ends i t)
    (hu : (controls i).unit.callsHost = false)
    (hdraw : (controls i).unit = .allocatorAlloc ∨ (controls i).unit = .allocatorInstall →
      s.host.nextOom = o.nextOom) :
    ∃ o', (s.withHost o).Ends i (t.withHost o') := by
  cases h with
  | outRange | out | outError | inByte | inEof | inError | inWait => cases hu
  | allocRefused b c h => exact ⟨_, .allocRefused b c (hdraw (.inl rfl) ▸ h)⟩
  | alloc b c k ho hc h0 hl => exact ⟨_, .alloc b c k (hdraw (.inl rfl) ▸ ho) hc h0 hl⟩
  | loadRefused b c g h hf ho => exact ⟨_, .loadRefused b c g h hf (hdraw (.inr rfl) ▸ ho)⟩
  | load b c g h hf ho => exact ⟨_, .load b c g h hf (hdraw (.inr rfl) ▸ ho)⟩
  | _ => exact ⟨o, by constructor <;> assumption⟩

/-- Settles O54: the second state is the first with another host, so its instruction ends in the first one's end with
another host. -/
theorem hostIsInvisibleWithoutACall : Obligations.HostIsInvisibleWithoutACall := by
  intro i s s' t t' hcore hu hdraw ht ht'
  obtain ⟨o, hends⟩ := (exec_inv ht).withHost hu hdraw
  rw [← hcore.eq_withHost] at hends
  obtain rfl := Host.Outcome.next.inj (hends.exec_eq.symm.trans ht')
  exact t.sameCore_withHost o

/-! ## Output (R93, R96) -/

/-- The byte sent for a value of at most 255 is the value (R93). -/
theorem toNat_outByte {v : Word} (h : v.toNat ≤ 255) : (outByte v).toNat = v.toNat := by
  rw [outByte, toNat_bits]
  omega

/-- Settles O33: the host that answers ok has delivered the byte. -/
theorem outputSendsTheByte : Obligations.OutputSendsTheByte := by
  intro c s h hw
  refine ⟨_, _, (State.Ends.out c h hw).exec_eq, toNat_outByte h, ⟨rfl, rfl, rfl, rfl, rfl, rfl⟩, ?_⟩
  simp [hw, WriteAnswer.delivered]

/-- Settles O34: the range check raises before the host is called. -/
theorem outputAboveByteFaults : Obligations.OutputAboveByteFaults := fun c s h =>
  ⟨_, (State.Ends.outRange c h).exec_eq, s.faultedOnly_raise _, rfl⟩

/-- Settles O35: the raise comes after the call, and the host's answer says whether the byte was delivered. -/
theorem failedWriteFaults : Obligations.FailedWriteFaults := by
  intro c s d h hw
  refine ⟨_, _, (State.Ends.outError c d h hw).exec_eq, toNat_outByte h, (s.afterWrite _).faultedOnly_raise _, ?_⟩
  simp [hw, WriteAnswer.delivered]

/-! ## Input (R94, R95) -/

/-- Zero-extension keeps the byte's value (R94). -/
theorem toNat_inByte (b : Byte) : (inByte b).toNat = b.toNat := BitVec.toNat_setWidth_of_le (by decide)

/-- Settles O36: both answers end in the write of one register, after one answer has been used. -/
theorem inputWritesByteOrEof : Obligations.InputWritesByteOrEof := by
  refine fun c s => ⟨fun v h => ?_, fun h => ?_⟩
  · obtain ⟨hx, hregs, hmem, hip, hrest⟩ := s.afterRead.wroteOnly_setX c (inByte v)
    exact ⟨_, (State.Ends.inByte c v h).exec_eq, (congrArg _ hx).trans (toNat_inByte v), hregs, hip, hmem, hrest⟩
  · obtain ⟨hx, hregs, hmem, hip, hrest⟩ := s.afterRead.wroteOnly_setX c eofWord
    exact ⟨_, (State.Ends.inEof c h).exec_eq, congrArg _ hx, hregs, hip, hmem, hrest⟩

/-- Settles O37: the fetch reads the Input, whose wait takes the fetch's increment of ip back. -/
theorem inputWaitsWithoutChange : Obligations.InputWaitsWithoutChange := by
  intro s c hon hin hd hn
  have hread : s.mem.read 0#32 s.ip = .ok (s.mem.seg0.get s.ip) :=
    Memory.read_eq_ok (Memory.find_zero _) (BitVec.lt_def.2 hin)
  have hstep := stepRunsTheDecodedInstruction s _ hon hread
  rw [hd] at hstep
  have hwait : s.passBoundary.advance.Ends (.inp c) _ := .inWait c hn
  exact ⟨_, hstep.trans hwait.exec_eq, ⟨rfl, BitVec.add_sub_cancel _ _, rfl, rfl, rfl, rfl⟩, rfl⟩

end Sys2Proof.Machine

/-! SUPPORT. Which fault an instruction meets, what a fault leaves, and that a benign host is never its cause
(spec/60_exceptions.md R97 to R103; spec/92_eei_decisions.md D8 to D10). -/

namespace Sys2Proof.Machine

/-! ## What a fault commits (R97, R99, R100) -/

/-- An instruction faults, committing the status and the record alone, or it leaves the record as it was and no status
Faulted where there was none. Every faulting end is a raise, and what the host did before it is no part of the core. -/
theorem State.Ends.faultedOnly_or_keeps_record {s t : State} {i : Instr} (h : s.Ends i t) (hs : s.status ≠ .faulted) :
    (∃ k, s.faultedOnly t k) ∨ (t.status ≠ .faulted ∧ t.faultRecord = s.faultRecord) := by
  cases h with
  | allocRefused | loadRefused => exact .inl ⟨_, s.afterOomDraw.faultedOnly_raise _⟩
  | outError => exact .inl ⟨_, (s.afterWrite _).faultedOnly_raise _⟩
  | inError => exact .inl ⟨_, s.afterRead.faultedOnly_raise _⟩
  | indexDead | indexOut | amendDead | amendOut | divZero | abandonZero | abandonDead | outRange | loadDead | illegal14
  | illegal15 => exact .inl ⟨_, s.faultedOnly_raise _⟩
  | halt => exact .inr ⟨nofun, rfl⟩
  | _ => exact .inr ⟨hs, rfl⟩

/-- Settles O46: of the two ways an instruction can end, the other leaves no status Faulted. -/
theorem faultingInstructionCommitsNothing : Obligations.FaultingInstructionCommitsNothing := by
  intro i s t hrun he ht
  rcases (exec_inv he).faultedOnly_or_keeps_record (by simp [hrun]) with hfault | ⟨hnot, -⟩
  · exact hfault
  · exact absurd ht hnot

/-! ## Which fault is raised (R102) -/

/-- A word access through a dead identifier meets InvalidSegment and nothing else (R38, R39). -/
theorem Memory.accessFaults_of_find_none {m : Memory} {id : Word} (hf : m.find id = none) (off : Word) (k : FaultKind) :
    m.accessFaults id off k ↔ k = .invalidSegment := by
  simp [Memory.accessFaults, Memory.live_eq, Memory.length?, hf]

/-- A word access through a live identifier meets SegmentOffsetOutOfBounds, exactly at an offset that is not in bounds
(R38, R39). -/
theorem Memory.accessFaults_of_find_some {m : Memory} {id : Word} {g : Segment} (hf : m.find id = some g) (off : Word)
    (k : FaultKind) : m.accessFaults id off k ↔ k = .segmentOffsetOutOfBounds ∧ ¬ g.inBounds off := by
  simp [Memory.accessFaults, Memory.live_eq, Memory.length?, hf, BitVec.lt_def]

/-- An instruction executed with no record leaves the record (kind, ip) exactly for the kind that the table of R102
gives it (R98, R99): the condition of each end decides the table's row. -/
theorem State.Ends.faultRecord_iff {s t : State} {i : Instr} (h : s.Ends i t) (hw : s.mem.wf)
    (hr : s.faultRecord = none) (k : FaultKind) : t.faultRecord = some ⟨k, s.ip⟩ ↔ s.faultsWith i k := by
  cases h with
  | indexDead a b c hf | amendDead a b c hf =>
    simp [State.faultsWith, Memory.accessFaults_of_find_none hf, eq_comm (a := k)]
  | indexOut a b c g hf hb | amendOut a b c g hf hb | index a b c g hf hb =>
    simp [State.faultsWith, Memory.accessFaults_of_find_some hf, hb, hr, eq_comm (a := k)]
  | amend a b c m hm =>
    obtain ⟨g, hf, hb, -⟩ := Memory.write_ok hm
    simp [State.faultsWith, Memory.accessFaults_of_find_some hf, hb, hr]
  | allocRefused b c h =>
    simp [State.faultsWith, ← AllocState.choose_eq_none_iff (a := s.alloc) hw, h, eq_comm (a := k)]
  | alloc b c k' ho hc =>
    simp [State.faultsWith, ← AllocState.choose_eq_none_iff (a := s.alloc) hw, ho, hc, hr]
  | divZero a b c h | div a b c h => simp [State.faultsWith, h, hr, eq_comm (a := k)]
  | abandonZero c h => simp [State.faultsWith, h, eq_comm (a := k)]
  | abandonDead c h hl | abandon c m h hl => simp [State.faultsWith, h, hl, hr, eq_comm (a := k)]
  | outRange c h => simp [State.faultsWith, h, h.not_ge, eq_comm (a := k)]
  | out c h hw' | outError c d h hw' => simp [State.faultsWith, h, h.not_gt, hw', hr, eq_comm (a := k)]
  | inByte c v h | inEof c h | inError c h | inWait c h => simp [State.faultsWith, h, hr, eq_comm (a := k)]
  | jump b c h => simp [State.faultsWith, h, hr]
  | loadDead b c h hf => simp [State.faultsWith, h, Memory.live_eq, hf, eq_comm (a := k)]
  | loadRefused b c g h hf ho | load b c g h hf ho =>
    simp [State.faultsWith, h, Memory.live_eq, hf, ho, hr, eq_comm (a := k)]
  | illegal14 | illegal15 => simp [State.faultsWith, eq_comm (a := k)]
  | cmovFalse | cmovTrue | add | mul | nand | halt | lc => simp [State.faultsWith, hr]

/-- Settles O45: the table gives the record, and there is a record of this ip exactly in status Faulted. -/
theorem faultsFollowThePriorityTable : Obligations.FaultsFollowThePriorityTable := by
  intro i s hw hrun hr
  obtain ⟨t, he, hends⟩ := exec_ends i s
  have htable := hends.faultRecord_iff hw hr
  refine ⟨t, he, htable, ?_⟩
  simp only [← htable]
  rcases hends.faultedOnly_or_keeps_record (by simp [hrun]) with ⟨k, hstatus, hrec, -⟩ | ⟨hnot, hkeep⟩
  · simp [hstatus, hrec]
  · simp [hnot, hkeep, hr]

/-! ## A benign host (R103) -/

/-- An instruction uses up answers of the host and adds none, so a benign host stays benign (R91, R103). -/
theorem State.Ends.benign {s t : State} {i : Instr} (h : s.Ends i t) (hb : s.host.benign) : t.host.benign := by
  obtain ⟨hoom, hin, hout⟩ := hb
  cases h with
  | allocRefused | alloc | loadRefused | load => exact ⟨hoom.head_tail.2, hin, hout⟩
  | out | outError => exact ⟨hoom, hin, hout.head_tail.2⟩
  | inByte | inEof | inError | inWait => exact ⟨hoom, hin.head_tail.2, hout⟩
  | _ => exact ⟨hoom, hin, hout⟩

/-- In the table of R102 a host fault needs a refused draw, a failed read or write, or every identifier live; a benign
host gives none of the first three (R103). -/
theorem State.fromHost_eq_false_of_faultsWith {s : State} {i : Instr} {k : FaultKind} (h : s.faultsWith i k)
    (hb : s.host.benign) (hfree : ∃ id, id ≠ 0#32 ∧ s.mem.live id = false) : k.fromHost = false := by
  obtain ⟨hdraws, hreads, hwrites⟩ := hb
  have hoom : s.host.nextOom = false := hdraws.head_tail.1
  have hread : s.host.nextRead ≠ .ioerr := hreads.head_tail.1
  have hwrite : s.host.nextWrite = .ok := hwrites.head_tail.1
  cases i with
  | index | amend => obtain ⟨rfl, -⟩ | ⟨rfl, -⟩ := h <;> rfl
  | div => obtain ⟨rfl, -⟩ := h; rfl
  | alloc =>
    obtain ⟨-, hrefused | hall⟩ := h
    · simp [hoom] at hrefused
    · obtain ⟨id, h0, hdead⟩ := hfree
      simp [hall id h0] at hdead
  | abandon => obtain ⟨rfl, -⟩ | ⟨rfl, -⟩ := h <;> rfl
  | out =>
    obtain ⟨rfl, -⟩ | ⟨-, -, hfail⟩ := h
    · rfl
    · exact absurd hwrite hfail
  | inp => exact absurd h.2 hread
  | loadprog =>
    obtain ⟨rfl, -⟩ | ⟨-, -, -, hrefused⟩ := h
    · rfl
    · simp [hoom] at hrefused
  | illegal14 | illegal15 => obtain rfl := h; rfl
  | cmov | add | mul | nand | halt | lc => exact h.elim

/-- Settles O53: a fetch fault is the program's own, and an executed instruction faults only as the table says. -/
theorem benignHostCausesNoHostFault : Obligations.BenignHostCausesNoHostFault := by
  rintro s t ⟨hw, -, hagrees⟩ hb hfree h
  obtain ⟨hrun, -, ⟨-, rfl⟩ | ⟨-, he⟩⟩ := step_cases h
  · exact ⟨hb, fun r hrec => by cases hrec; rfl⟩
  · have hends := exec_inv he
    have hr : s.faultRecord = none := hagrees.none_of_running hrun
    have hnot : s.passBoundary.advance.status ≠ .faulted := by simp [hrun]
    refine ⟨hends.benign hb, fun r hrec => ?_⟩
    rcases hends.faultedOnly_or_keeps_record hnot with ⟨k, -, hk, -⟩ | ⟨-, hkeep⟩
    · obtain rfl := Option.some.inj (hrec.symm.trans hk)
      exact State.fromHost_eq_false_of_faultsWith ((hends.faultRecord_iff hw hr k).1 hk) hb hfree
    · exact absurd (hrec.symm.trans (hkeep.trans hr)) nofun

end Sys2Proof.Machine

/-! SUPPORT. Boot from an image, and that a fetch sees at once what the instruction before it did to segment 0
(spec/70_reset_and_hazards.md R114 to R116, R123, R124; spec/10_state.md R31; spec/92_eei_decisions.md D16). -/

namespace Sys2Proof.Machine

/-! ## Boot (R114, R116) -/

/-- The three ends of boot, by the image's length: `boot_cases` with the limit of D16 told apart. -/
theorem boot_size_cases (e : Environment) (image : List Byte) :
    ((image.length = 0 ∨ image.length % 4 ≠ 0) ∧ boot e image = .fault .invalidImageSize) ∨
    (¬ (image.length = 0 ∨ image.length % 4 ≠ 0) ∧ 4 * (2 ^ 32 - 1) < image.length ∧
      boot e image = .refused .imageTooLarge) ∨
    (¬ (image.length = 0 ∨ image.length % 4 ≠ 0) ∧ image.length ≤ 4 * (2 ^ 32 - 1) ∧
      boot e image = .next (State.init e (imageWords image))) := by
  unfold boot
  by_cases hbad : image.length = 0 ∨ image.length % 4 ≠ 0
  · exact .inl ⟨hbad, if_pos hbad⟩
  · rw [if_neg hbad]
    by_cases hlarge : maxImageBytes < image.length
    · exact .inr (.inl ⟨hbad, hlarge, if_pos hlarge⟩)
    · exact .inr (.inr ⟨hbad, not_lt.1 hlarge, if_neg hlarge⟩)

/-- Settles O9: the three ends of boot differ, and so do the lengths they belong to. -/
theorem bootChecksTheImageSize : Obligations.BootChecksTheImageSize := by
  intro e image
  rcases boot_size_cases e image with ⟨hbad, hb⟩ | ⟨hgood, hlarge, hb⟩ | ⟨hgood, hfits, hb⟩
  · exact ⟨iff_of_true hb hbad, iff_of_false (by simp [hb]) (by omega)⟩
  · exact ⟨iff_of_false (by simp [hb]) hgood, iff_of_true hb (by omega)⟩
  · exact ⟨iff_of_false (by simp [hb]) hgood, iff_of_false (by simp [hb]) (by omega)⟩

/-- The listed cells of a sequence give back its words: a word not listed is one that an unlisted word reads as. -/
theorem assocGet_cellsFrom (n k : Nat) (ws : List Word) :
    (assocGet (n + k) (cellsFrom n ws)).getD unlistedWord = ws[k]?.getD unlistedWord := by
  induction ws generalizing n k with
  | nil => rfl
  | cons w ws ih =>
    cases k with
    | zero =>
      by_cases hw : w = unlistedWord
      · have habs : assocGet n (cellsFrom (n + 1) ws) = none := assocGet_of_lt fun _ hp => (mem_cellsFrom hp).1
        simp [cellsFrom, hw, habs]
      · simp [cellsFrom, hw, assocGet]
    | succ k =>
      have htail : (assocGet (n + (k + 1)) (cellsFrom (n + 1) ws)).getD unlistedWord = ws[k]?.getD unlistedWord := by
        rw [← ih (n + 1) k, Nat.add_right_comm, Nat.add_assoc]
      by_cases hw : w = unlistedWord
      · simp [cellsFrom, hw, htail]
      · simp [cellsFrom, hw, assocGet, htail]

/-- In a store with a sequence of words as segment 0, offset k reads word k (R38, R43). -/
theorem Memory.read_install_ofWords {ws : List Word} {k : Nat} {w : Word} (m : Memory) (hlen : ws.length < 2 ^ 32)
    (hw : ws[k]? = some w) : (m.install (Segment.ofWords ws)).read 0#32 (BitVec.ofNat 32 k) = .ok w := by
  obtain ⟨hk, -⟩ := List.getElem?_eq_some_iff.1 hw
  have hkn : (BitVec.ofNat 32 k).toNat = k := toNat_ofNat_of_lt (hk.trans hlen)
  have hb : (Segment.ofWords ws).inBounds (BitVec.ofNat 32 k) := by
    rw [Segment.inBounds, BitVec.lt_def, hkn, Segment.ofWords, toNat_ofNat_of_lt hlen]
    exact hk
  have hget : (Segment.ofWords ws).get (BitVec.ofNat 32 k) = w := by
    simpa [Segment.get, Segment.ofWords, hkn, hw] using assocGet_cellsFrom 0 k ws
  rw [Memory.read_eq_ok (Memory.find_zero _) hb, Memory.install_seg0, hget]

/-- In an untouched state no identifier but 0 is live (R31). -/
theorem State.Untouched.live_eq_false {s : State} (h : s.Untouched) {id : Word} (hid : id ≠ 0#32) :
    s.mem.live id = false := by
  obtain ⟨hsegs, -⟩ := h
  simp [Memory.live, Memory.find, hid, hsegs, assocGet]

/-- Settles O10: boot answers `State.init`, whose segment 0 is made of the image's words and which is untouched. -/
theorem bootSetsTheInitialState : Obligations.BootSetsTheInitialState := by
  intro e image n hlen hpos hlt
  rcases boot_size_cases e image with ⟨hbad, -⟩ | ⟨-, hlarge, -⟩ | ⟨-, -, hb⟩
  · omega
  · omega
  · have hwords : (imageWords image).length = n := length_imageWords hlen
    refine ⟨_, hb, fun r => by cases r <;> rfl, rfl, rfl, rfl, fun id => (untouched_init e _).live_eq_false,
      congrArg (fun l => some (BitVec.ofNat 32 l)) hwords, fun k hk => ?_, rfl, rfl⟩
    have hw : (imageWords image)[k]? = some (imageWords image)[k] := List.getElem?_eq_getElem (hwords ▸ hk)
    exact ⟨_, hw, Memory.read_install_ofWords _ (hwords ▸ hlt) hw⟩

/-! ## The next fetch (R123, R124) -/

/-- Settles O51: the word written reads back, and a step fetches what segment 0 reads at ip. -/
theorem nextFetchSeesTheStore : Obligations.NextFetchSeesTheStore := by
  intro a b c s t hon h0 hlt h
  obtain ⟨m, hw⟩ : ∃ m, s.mem.write (s.x a) (s.x b) (s.x c) = .ok m :=
    ⟨_, Memory.write_eq_ok _ (h0 ▸ Memory.find_zero _) (BitVec.lt_def.2 hlt)⟩
  obtain rfl := Host.Outcome.next.inj (h.symm.trans (exec_amend_of_write hw))
  have hread : m.read 0#32 (s.x b) = .ok (s.x c) := Memory.read_write_same (h0 ▸ hw)
  have hfetch : ∀ u : State, u.stepsOn → u.ip = s.x b → u.mem.read 0#32 (s.x b) = m.read 0#32 (s.x b) →
      step u = exec (decode (s.x c)) u.passBoundary.advance := fun u hu hip hsame =>
    stepRunsTheDecodedInstruction u _ hu (hip ▸ hsame.trans hread)
  exact ⟨hfetch, fun hip => hfetch _ hon hip rfl⟩

/-- A Load-Program that commits stands at the target, with segment x[B] read as segment 0; it changes neither the status
nor when the host cancels (R87). -/
theorem exec_loadprog_commits {b c : Reg} {s : State} (hl : s.mem.live (s.x b) = true)
    (ho : s.x b ≠ 0#32 → s.host.nextOom = false) :
    ∃ t, exec (.loadprog b c) s = .next t ∧ t.ip = s.x c ∧ t.mem.read 0#32 t.ip = s.mem.read (s.x b) (s.x c) ∧
      t.status = s.status ∧ t.host.cancelIn = s.host.cancelIn := by
  by_cases h0 : s.x b = 0#32
  · obtain ⟨t, he, hip, -, ⟨hread, -⟩, hstatus, -, -, hhost⟩ := loadProgramJumps b c s h0
    exact ⟨t, he, hip, by rw [hread, hip, h0], hstatus, by rw [hhost]⟩
  · obtain ⟨g, hf, he⟩ := exec_loadprog_live (c := c) h0 hl (ho h0)
    exact ⟨_, he, rfl, by simp [Memory.read, hf], rfl, rfl⟩

/-- Where segment 0 has no word at ip, the fetch faults (R83). -/
theorem State.fetchWord_of_read_error {s : State} {k : FaultKind} (h : s.mem.read 0#32 s.ip = .error k) :
    s.fetchWord = .error .instructionPointerOutOfBounds := by
  rcases s.fetchWord_cases with ⟨-, hf⟩ | ⟨-, hf⟩
  · exact absurd (h.symm.trans ((s.fetchWord_eq_ok_iff _).1 hf)) nofun
  · exact hf

/-- Settles O52: the state after the Load-Program steps on at the target, where segment 0 reads as segment x[B] did, so
its fetch succeeds or faults as that read does. -/
theorem nextFetchReadsTheNewProgram : Obligations.NextFetchReadsTheNewProgram := by
  rintro b c s t ⟨hrun, hcancel⟩ hl ho h
  obtain ⟨t', he, -, hread, hstatus, hkeep⟩ := exec_loadprog_commits (c := c) hl ho
  obtain rfl := Host.Outcome.next.inj (h.symm.trans he)
  have hon : t.stepsOn := ⟨hstatus.trans hrun, hkeep ▸ hcancel⟩
  refine ⟨fun w hw => stepRunsTheDecodedInstruction t w hon (hread.trans hw), fun hout => ?_⟩
  exact ⟨_, step_of_fetch_error (t.boundary_go_iff.2 hon) (State.fetchWord_of_read_error (hread.trans hout)),
    t.passBoundary.faultedOnly_raise _⟩

end Sys2Proof.Machine
